-- ==== Sys2Proof/Word.lean ====
section
/-!
DEFINITION. The two widths of the engine, 32-bit words (R3) and the bytes of the key memory (R33), and a triple of words.
All arithmetic on them is unsigned and wraps modulo 2^32 (R3, R9).
-/
namespace Sys2Proof

/-- A `u32` (R3, R9); bit 0 is the least significant (R8). -/
abbrev Word := BitVec 32

/-- A `u8` (R9). -/
abbrev Byte := BitVec 8

/-- Three u32 words `(a, b, c)`: what `mix`, `final` and `tailacc` map to three words (R57, R59, R66). -/
structure Words where
  a : Word
  b : Word
  c : Word
  deriving DecidableEq, Repr

end Sys2Proof
end

