-- ==== Sys2Proof/Syntax.lean ====
section
/-!
DEFINITION. The eight commands of the engine (R52), one constructor per row of spec/opcode_table.json.
-/
namespace Sys2Proof

/-- A command. The operands that are not written here are implicit registers (R51). -/
inductive Instr where
  /-- NOP (R82). -/
  | nop
  /-- INIT (R67): open a session. -/
  | init
  /-- BLOCK (R68): absorb one 12-byte block. -/
  | block
  /-- TAIL (R69): accumulate the tail and close the session. -/
  | tail
  /-- HASH (R70): hash the whole key. -/
  | hash
  /-- MIX (R62): one Mix Round. -/
  | mix
  /-- FINAL (R63): one Finalization Round. -/
  | final
  /-- ROTL (R61): rotate the state word that `rs` selects left by `sh` (R50, R51). -/
  | rotl (rs : BitVec 2) (sh : BitVec 5)
  deriving DecidableEq, Repr

end Sys2Proof
end

