-- ==== Sys2Proof/Decode.lean ====
section
/-!
DEFINITION. Decoding a command word (R48 to R54), total on all 2^32 words, and the encoder of R52 and R84.
A word travels whole on a 32-bit data path, so no byte order enters (R39).
-/
namespace Sys2Proof

/-- The three classes of illegal words (R54). All of them are rejected alike, with E_ILLEGAL (R88). -/
inductive Illegal where
  /-- OP = 0x8 .. 0xF. -/
  | reservedOpcode
  /-- A nonzero reserved bit: 31:4 in Format Z; 31:13 or 7:6 in Format S. -/
  | reservedBits
  /-- ROTL with RS = 3. -/
  | noStateWord
  deriving DecidableEq, Repr

/-- What a word decodes to: "Every word yields a command or ILLEGAL" (R53). -/
inductive Decoded where
  | command (i : Instr)
  | illegal (why : Illegal)
  deriving DecidableEq, Repr

/-- `OP = w[3:0]` (R51). -/
def opField (w : Word) : BitVec 4 := w.extractLsb' 0 4

/-- `RS = w[5:4]` (R51). -/
def rsField (w : Word) : BitVec 2 := w.extractLsb' 4 2

/-- `SH = w[12:8]` (R51). -/
def shField (w : Word) : BitVec 5 := w.extractLsb' 8 5

/-- Format Z's reserved bits 31:4 (R49). -/
def reservedZ (w : Word) : BitVec 28 := w.extractLsb' 4 28

/-- Format S's reserved bits 7:6 (R50). -/
def reservedSLow (w : Word) : BitVec 2 := w.extractLsb' 6 2

/-- Format S's reserved bits 31:13 (R50). -/
def reservedSHigh (w : Word) : BitVec 19 := w.extractLsb' 13 19

/-- The Format Z column of R52: the seven commands without operands, by OP. -/
def formatZ (op : BitVec 4) : Decoded :=
  match op.toNat with
  | 0 => .command .nop
  | 1 => .command .init
  | 2 => .command .block
  | 3 => .command .tail
  | 4 => .command .hash
  | 5 => .command .mix
  | 6 => .command .final
  | _ => .illegal .reservedOpcode

/-- R53. -/
def decode (w : Word) : Decoded :=
  if opField w = 7#4 then
    if reservedSHigh w ≠ 0#19 ∨ reservedSLow w ≠ 0#2 then .illegal .reservedBits
    else if rsField w = 3#2 then .illegal .noStateWord
    else .command (.rotl (rsField w) (shField w))
  else if 8 ≤ (opField w).toNat then .illegal .reservedOpcode
  else if reservedZ w ≠ 0#28 then .illegal .reservedBits
  else formatZ (opField w)

/-- The word of a command (R52; `encode` of R84). -/
def encode : Instr → Word
  | .nop => 0x00000000#32
  | .init => 0x00000001#32
  | .block => 0x00000002#32
  | .tail => 0x00000003#32
  | .hash => 0x00000004#32
  | .mix => 0x00000005#32
  | .final => 0x00000006#32
  | .rotl rs sh => 0x00000007#32 ||| (rs.setWidth 32 <<< 4) ||| (sh.setWidth 32 <<< 8)

/-- The instruction that the decoder reads from a table row's bits. A command is one 32-bit word (R48), so a row's `nbits` low bits
are that word and every bit above them is zero (DEDUCED, log 15). -/
def decodeTableWord (nbits w : Nat) : Option Instr :=
  match decode (BitVec.ofNat 32 (w % 2 ^ nbits)) with
  | .command i => some i
  | .illegal _ => none

end Sys2Proof
end

