-- ==== Sys2Proof/Config.lean ====
section
/-!
DEFINITION. What the spec leaves open: one parameter and two free values, none with a body, so no proof can see what they are.
-/
namespace Sys2Proof

/-- DESIGN CHOICE (log 3), safe. The highest key-memory address of the machine right after power-on; KEYMEM_SIZE (R6, OPEN) is this
plus one, so that 1 <= KEYMEM_SIZE <= 2^32 holds whatever it is. -/
opaque Config.keymemTop : Word

/-- DESIGN CHOICE (log 4), safe. The unspecified value a key-memory byte holds at power-on (R106, U2), by its address. -/
opaque Config.powerOnByte : Nat → Byte

/-- DESIGN CHOICE (log 5), safe. The unspecified u32 that a host read of a state word without a value returns (R15, U1); the argument
counts such reads, since two of them need not agree (D21). -/
opaque Config.unspecifiedRead : Nat → Word

end Sys2Proof
end

