-- ==== Sys2Proof/Machine/State.lean ====
section
/-!
DEFINITION. The machine's state as plain data: everything R12 lists, and the model's own fields for the host's side of the
total order of R45 (log 1, log 6). The types of its fields, the reasons a step can stop, and the state after reset.
-/
namespace Sys2Proof.Machine

/-- The three state words `x[0]`, `x[1]`, `x[2]` (R14, R9). -/
inductive WordSel where
  | A
  | B
  | C
  deriving DecidableEq, Repr

/-- ECODE (R87). The reserved codes 0x5 .. 0xF are never produced, so the type lacks them (U4; DEDUCED, log 17). -/
inductive ECode where
  /-- No error since ERR was last cleared. -/
  | none
  /-- E_ILLEGAL (R88). -/
  | illegal
  /-- E_LENGTH (R89). -/
  | length
  /-- E_SEQ (R90). -/
  | seq
  /-- E_UNINIT (R91). -/
  | uninit
  deriving DecidableEq, Repr

/-- PEND, the pending-command state (R29). -/
inductive Pend where
  | none
  | init
  | block
  | tail
  | mix
  | final
  | rotl (x : WordSel) (sh : BitVec 5)
  | hashInit
  | hashBody
  deriving DecidableEq, Repr

/-- The register map of R13, with the names of R84. -/
inductive Reg where
  | cmd
  | status
  | len
  | seed
  | kaddr
  | a
  | b
  | c
  | rem
  | cur
  | nmix
  | nfin
  | rsv12
  | rsv13
  | rsv14
  | rsv15
  deriving DecidableEq, Repr

/-- One event of the total order of R45. -/
inductive Event where
  /-- `rd idx` (R76). -/
  | regRead (idx : BitVec 4)
  /-- `wr idx, v` (R77, R78). -/
  | regWrite (idx : BitVec 4) (v : Word)
  /-- `KeyWrite(addr, v)` (R79). -/
  | keyWrite (addr : Word) (v : Byte)
  /-- The engine's turn: it takes its next step if PEND is not none (R81). -/
  | engine
  /-- The reset input is asserted (R105). -/
  | reset
  /-- The pseudo-operation `wait` (R85): `rd STATUS` until BUSY is 0, with a turn of the engine between two reads. -/
  | wait
  deriving DecidableEq, Repr

/-- What a register read gave the host (R76). -/
structure Answer where
  /-- The register index read. -/
  idx : BitVec 4
  /-- The data returned. -/
  data : Word
  /-- The mark of U1: the word read held no value, and `data` is a free value on which no claim may rest. -/
  marked : Bool
  deriving DecidableEq, Repr

/-- The key memory KMEM (R33). -/
structure Memory where
  /-- The highest address: KEYMEM_SIZE - 1 (R6, log 3). No event changes it. -/
  top : Word
  /-- The bytes that a `KeyWrite` has written, addresses strictly rising. An unlisted address holds no value (R106, U2). -/
  cells : List Host.Cell
  deriving DecidableEq, Repr

/-- The engine's state (R12), and below it the model's own fields. AV, BV and CV are "the word holds a value" (R26) and BUSY is
"PEND is not none" (R25): `State.av`, `State.bv`, `State.cv` and `State.busy` compute them (DEDUCED, log 7). -/
structure State where
  /-- A: a u32 or no value (R14). -/
  a : Option Word
  /-- B: a u32 or no value (R14). -/
  b : Option Word
  /-- C: a u32 or no value (R14); it carries the hash result. -/
  c : Option Word
  /-- LEN (R16). -/
  len : Word
  /-- SEED (R17). -/
  seed : Word
  /-- KADDR (R18). -/
  kaddr : Word
  /-- REM (R19). -/
  rem : Word
  /-- CUR (R20). -/
  cur : Word
  /-- NMIX (R21). -/
  nmix : Word
  /-- NFIN (R21). -/
  nfin : Word
  /-- STATUS.DONE (R24). -/
  done : Bool
  /-- STATUS.ERR (R22, R94). -/
  err : Bool
  /-- STATUS.OVR (R22, R96). -/
  ovr : Bool
  /-- STATUS.ECODE (R22, R87). -/
  ecode : ECode
  /-- STATUS.ACTIVE (R23). -/
  active : Bool
  /-- PEND (R29). -/
  pend : Pend
  /-- KMEM (R33). -/
  kmem : Memory
  /-- The model's own: the events still to come, in the total order of R45 (log 1). -/
  inbox : List Event
  /-- The model's own: what the last register read gave the host (R76; log 6). -/
  answer : Option Answer
  /-- The model's own: how many reads of a word without a value have been made; the free value's counter (U1; log 5). -/
  freeReads : Nat
  /-- The model's own: the mark of U2, "computed from no value". Since the last reset an engine step has used a key byte that
  nothing had written (log 4). -/
  tainted : Bool
  deriving DecidableEq, Repr

/-- Why a step stops. Neither reason is the spec's: R92 says a step that has begun always completes. Both stand only in states that no
run from reset reaches (`State.Inv` excludes them; log 9). -/
inductive Fault where
  /-- Raised by an engine step of BLOCK, TAIL, MIX, FINAL, ROTL or HASH that needs a state word holding no value, which the
  checks at acceptance exclude (R26, R91, R23). Safe. -/
  | noValue
  /-- Raised by an engine step of BLOCK, TAIL or HASH whose key bytes do not all lie below KEYMEM_SIZE, where R33 gives no
  location; the check of R89 excludes it. Safe. -/
  | beyondKeyMemory
  deriving DecidableEq, Repr

/-- Why an instruction has no meaning. -/
inductive Refusal where
  /-- Raised by `exec` alone, for an instruction that the model gives no meaning yet (none is left). Safe. -/
  | notModelled (mnemonic : String)
  deriving DecidableEq, Repr

/-- The machine right after reset, the first since power-on (R105, R106). KEYMEM_SIZE is the open parameter (R6, log 3); the
model's own fields are DESIGN CHOICE (log 6). -/
def State.reset : State where
  a := none
  b := none
  c := none
  len := 0
  seed := 0
  kaddr := 0
  rem := 0
  cur := 0
  nmix := 0
  nfin := 0
  done := false
  err := false
  ovr := false
  ecode := .none
  active := false
  pend := .none
  kmem := { top := Config.keymemTop, cells := [] }
  inbox := []
  answer := none
  freeReads := 0
  tainted := false

end Sys2Proof.Machine
end

