-- ==== Sys2Proof/Machine/Ops.lean ====
section
/-!
DEFINITION. The named operations over the key memory, the state words and the command life cycle: acceptance, the end of a command,
a dropped write, rejection (the hardware's "trap entry", R94) and the clearing of an error (its only "return", R95).
-/
namespace Sys2Proof.Machine

/-! ## Key memory (R33, R79, R106) -/

/-- KEYMEM_SIZE (R6). -/
def Memory.size (m : Memory) : Nat := m.top.toNat + 1

/-- The byte listed at an address, none where nothing is listed. -/
def readCells : List Host.Cell → Nat → Option Byte
  | [], _ => none
  | cell :: rest, addr => if addr = cell.1 then some cell.2 else readCells rest addr

/-- The list with `v` at `addr`, rising addresses kept rising. -/
def writeCells : List Host.Cell → Nat → Byte → List Host.Cell
  | [], addr, v => [(addr, v)]
  | cell :: rest, addr, v =>
    if addr < cell.1 then (addr, v) :: cell :: rest
    else if addr = cell.1 then (addr, v) :: rest
    else cell :: writeCells rest addr v

/-- Addresses strictly rising, the first at least `lo`. -/
def risingFrom : Nat → List Host.Cell → Bool
  | _, [] => true
  | lo, cell :: rest => decide (lo ≤ cell.1) && risingFrom (cell.1 + 1) rest

/-- The canonical form: addresses strictly rising, all below KEYMEM_SIZE. An unlisted address holds no value, so no entry can equal
what an unlisted address reads as. -/
def Memory.wf (m : Memory) : Bool :=
  risingFrom 0 m.cells && m.cells.all (fun cell => decide (cell.1 < m.size))

/-- The value KMEM holds at an address; none where no `KeyWrite` has written (R106, U2). -/
def Memory.read (m : Memory) (addr : Nat) : Option Byte := readCells m.cells addr

/-- `MemRead(addr, 1)` (R33): what the byte holds; at an address nothing has written, the free value of power-on (R106, log 4). -/
def Memory.byte (m : Memory) (addr : Nat) : Byte := (m.read addr).getD (Config.powerOnByte addr)

/-- `KMEM[addr] <- v if addr < KEYMEM_SIZE`; beyond it, no effect (R79). -/
def Memory.write (m : Memory) (addr : Nat) (v : Byte) : Memory :=
  if addr < m.size then { m with cells := writeCells m.cells addr v } else m

/-- All `n` bytes at `p .. p+n-1` are locations of KMEM (R33). Exact integers: no read is at a wrapped address (R20, C8). -/
def Memory.holds (m : Memory) (p n : Nat) : Bool := n == 0 || decide (p + n ≤ m.size)

/-- All `n` bytes at `p .. p+n-1` have been written since power-on (U2). -/
def Memory.written (m : Memory) (p n : Nat) : Bool := (List.range n).all (fun j => (m.read (p + j)).isSome)

/-! ## State words (R14, R26) -/

/-- The value of `x[i]`, none where the word holds no value (R14). -/
def State.word (s : State) : WordSel → Option Word
  | .A => s.a
  | .B => s.b
  | .C => s.c

/-- `x[i] <- v`; the word's valid bit becomes 1 (R15, R26). -/
def State.setWord (s : State) (x : WordSel) (v : Word) : State :=
  match x with
  | .A => { s with a := some v }
  | .B => { s with b := some v }
  | .C => { s with c := some v }

/-- The three words together, if all three hold a value. -/
def State.words (s : State) : Option Words :=
  match s.a, s.b, s.c with
  | some x, some y, some z => some ⟨x, y, z⟩
  | _, _, _ => none

/-- `(A, B, C) <- t`. -/
def State.setWords (s : State) (t : Words) : State := { s with a := some t.a, b := some t.b, c := some t.c }

/-! ## The life of a command (R80, R81) -/

/-- Acceptance: `DONE <- 0; PEND <- p; BUSY <- 1` (the accept lines of INIT, BLOCK, HASH, MIX, FINAL and ROTL). -/
def State.start (s : State) (p : Pend) : State := { s with done := false, pend := p }

/-- The last line of a command's last step: `PEND <- none; BUSY <- 0` (R25). -/
def State.finish (s : State) : State := { s with pend := .none }

/-- A host write dropped while BUSY = 1: no effect except OVR <- 1 (R78). -/
def State.drop (s : State) : State := { s with ovr := true }

/-- `raise Error(code)` (R94): taking an error. The first code since ERR was last 0 is kept; nothing else changes. -/
def raiseError (code : ECode) (s : State) : State :=
  if s.err then s else { s with err := true, ecode := code }

/-- A host write of `v` to STATUS (R22), whatever BUSY is. Bit 2 is the only return from an error (R95); no bit is ever set. -/
def clearStatus (v : Word) (s : State) : State :=
  { s with
    done := s.done && !v.getLsbD 1
    err := s.err && !v.getLsbD 2
    ecode := if v.getLsbD 2 then .none else s.ecode
    ovr := s.ovr && !v.getLsbD 3 }

/-- An acceptance check (R92): the command starts if `ok`, otherwise `raise Error(code)`. -/
def acceptIf (ok : Bool) (code : ECode) (begin : State → State) (s : State) : Host.Outcome State Fault Refusal :=
  .next (if ok then begin s else raiseError code s)

/-- A command offered to the engine: while another command is pending it is dropped (R78), otherwise its accept lines run (R80). -/
def offer (accept : State → Host.Outcome State Fault Refusal) (s : State) : Host.Outcome State Fault Refusal :=
  if s.pend = .none then accept s else .next s.drop

/-- A command of one step (R80, R81): where it is the pending command its step lines run, otherwise it is offered. -/
def command (own : Pend) (accept step : State → Host.Outcome State Fault Refusal) (s : State) :
    Host.Outcome State Fault Refusal :=
  if s.pend = own then step s else offer accept s

/-- What follows in the same atomic step (R42): `f` on the next state; a stop stays. -/
def andThen (o : Host.Outcome State Fault Refusal) (f : State → State) : Host.Outcome State Fault Refusal :=
  match o with
  | .next s => .next (f s)
  | .fault r => .fault r
  | .refused r => .refused r

end Sys2Proof.Machine
end

