-- ==== Sys2Proof/Machine/Flags.lean ====
section
/-!
DEFINITION. The fields of STATUS that are views of other state (R25, R26), STATUS as it reads (R22), ECODE's values (R87) and the checks made at
acceptance (R89, R90, R91). The engine has no condition codes (R31).
-/
namespace Sys2Proof.Machine

/-- STATUS.BUSY: PEND is not none (R25, R29). -/
def State.busy (s : State) : Bool := s.pend != .none

/-- STATUS.AV: A holds a value (R26). -/
def State.av (s : State) : Bool := s.a.isSome

/-- STATUS.BV: B holds a value (R26). -/
def State.bv (s : State) : Bool := s.b.isSome

/-- STATUS.CV: C holds a value (R26). -/
def State.cv (s : State) : Bool := s.c.isSome

/-- The code of an ECODE name (R87). -/
def ECode.bits : ECode → BitVec 4
  | .none => 0x0#4
  | .illegal => 0x1#4
  | .length => 0x2#4
  | .seq => 0x3#4
  | .uninit => 0x4#4

/-- A flag as a word. -/
def bit (b : Bool) : Word := if b then 1#32 else 0#32

/-- STATUS as it reads (R22). -/
def State.status (s : State) : Word :=
  bit s.busy ||| (bit s.done <<< 1) ||| (bit s.err <<< 2) ||| (bit s.ovr <<< 3) ||| (s.ecode.bits.setWidth 32 <<< 4)
    ||| (bit s.av <<< 8) ||| (bit s.bv <<< 9) ||| (bit s.cv <<< 10) ||| (bit s.active <<< 11)

/-- The check of INIT and HASH: KADDR + LEN <= KEYMEM_SIZE, on exact integers (R89). -/
def State.lengthOk (s : State) : Bool := decide (s.kaddr.toNat + s.len.toNat ≤ s.kmem.size)

/-- The check of BLOCK: a session is open and REM > 12 (R90). -/
def State.blockOk (s : State) : Bool := s.active && decide (12 < s.rem.toNat)

/-- The check of TAIL: a session is open and REM <= 12 (R90). -/
def State.tailOk (s : State) : Bool := s.active && decide (s.rem.toNat ≤ 12)

/-- The check of MIX and FINAL: AV, BV and CV are 1 (R91). -/
def State.wordsOk (s : State) : Bool := s.av && s.bv && s.cv

/-- The check of ROTL: the selected word's valid bit is 1 (R91). -/
def State.wordOk (s : State) (x : WordSel) : Bool := (s.word x).isSome

end Sys2Proof.Machine
end

