-- ==== Sys2Proof/Machine/Operands.lean ====
section
/-!
DEFINITION. The operand forms of the commands (R51): the state word that RS selects, and key bytes assembled little-endian into words
(R37, R38, R64, R66). The byte functions take the bytes as a function of the address, so that one definition serves both KMEM and the key
of R71.
-/
namespace Sys2Proof.Machine

/-- The state word that RS names; RS = 3 names none (R51). -/
def selectWord (rs : BitVec 2) : Option WordSel :=
  match rs.toNat with
  | 0 => some .A
  | 1 => some .B
  | 2 => some .C
  | _ => none

/-- The RS that names a state word (R51). -/
def WordSel.rs : WordSel → BitVec 2
  | .A => 0#2
  | .B => 1#2
  | .C => 2#2

/-- The command whose step lines run while PEND holds a value (R29, R81); HASH_INIT and HASH_BODY are HASH's (R70). -/
def pendingInstr : Pend → Option Instr
  | .none => none
  | .init => some .init
  | .block => some .block
  | .tail => some .tail
  | .mix => some .mix
  | .final => some .final
  | .rotl x sh => some (.rotl x.rs sh)
  | .hashInit => some .hash
  | .hashBody => some .hash

/-- `le32(p)` over bytes `byte` (R64): the lower address supplies the less significant byte (R37). -/
def le32 (byte : Nat → Byte) (p : Nat) : Word :=
  (byte p).setWidth 32
    ||| ((byte (p + 1)).setWidth 32 <<< 8)
    ||| ((byte (p + 2)).setWidth 32 <<< 16)
    ||| ((byte (p + 3)).setWidth 32 <<< 24)

/-- The three `le32` additions of a BLOCK step (R68). -/
def addBlock (byte : Nat → Byte) (p : Nat) (t : Words) : Words :=
  ⟨t.a + le32 byte p, t.b + le32 byte (p + 4), t.c + le32 byte (p + 8)⟩

/-- One pass of the loop of R66: key byte `j`, shifted to its place, is added to the word it belongs to. -/
def addTailByte (v : Byte) (j : Nat) (t : Words) : Words :=
  if j / 4 = 0 then { t with a := t.a + (v.setWidth 32 <<< (8 * (j % 4))) }
  else if j / 4 = 1 then { t with b := t.b + (v.setWidth 32 <<< (8 * (j % 4))) }
  else { t with c := t.c + (v.setWidth 32 <<< (8 * (j % 4))) }

/-- `tailacc(a, b, c, p, r)` over bytes `byte` (R66): byte `j` contributes if and only if `j < r` (C4), in rising order.
R66 has `r` <= 12; a larger `r` stands only in states that no run reaches (DEDUCED, log 10). -/
def tailacc (byte : Nat → Byte) (p : Nat) : Nat → Words → Words
  | 0, t => t
  | r + 1, t => addTailByte (byte (p + r)) r (tailacc byte p r t)

/-- `iv(LEN, SEED)` (R65) with INITVAL = 0xdeadbeef (R5). -/
def iv (len seed : Word) : Word := 0xdeadbeef#32 + len + seed

end Sys2Proof.Machine
end

