-- ==== Sys2Proof/Machine/Mixer.lean ====
section
/-!
DEFINITION. The mixer family (40_mixer.md): the functions `rotl32` (R55), `mix` (R57) and `final` (R59), and the commands ROTL (R61),
MIX (R62) and FINAL (R63). None of them needs, closes or opens a session.
-/
namespace Sys2Proof.Machine

/-- `rotl32(w, s)` (R55), for 0 <= s <= 31. -/
def rotl32 (w : Word) (s : Nat) : Word :=
  if s = 0 then w else (w <<< s) ||| (w >>> (32 - s))

/-- One sub-step of the Mix Round, `x -= z; x ^= rotl32(z, k); z += y`: the new `x` (R57). -/
def mixOut (k : Nat) (x z : Word) : Word := (x - z) ^^^ rotl32 z k

/-- The Mix Round (R57). Each sub-step reads what the one before it left (R10). PRESUMED roles: the spec takes them from general
knowledge (GK1; log 12). -/
def mix (t : Words) : Words :=
  let a := t.a
  let b := t.b
  let c := t.c
  let a := mixOut 4 a c
  let c := c + b
  let b := mixOut 6 b a
  let a := a + c
  let c := mixOut 8 c b
  let b := b + a
  let a := mixOut 16 a c
  let c := c + b
  let b := mixOut 19 b a
  let a := a + c
  let c := mixOut 4 c b
  let b := b + a
  ⟨a, b, c⟩

/-- One sub-step of the Finalization Round, `z ^= y; z -= rotl32(y, k)`: the new `z` (R59). -/
def finalOut (k : Nat) (z y : Word) : Word := (z ^^^ y) - rotl32 y k

/-- The Finalization Round (R59). PRESUMED roles: the spec takes them from general knowledge (GK2; log 12). -/
def final (t : Words) : Words :=
  let a := t.a
  let b := t.b
  let c := t.c
  let c := finalOut 14 c b
  let a := finalOut 11 a c
  let b := finalOut 25 b a
  let c := finalOut 16 c b
  let a := finalOut 4 a c
  let b := finalOut 14 b a
  let c := finalOut 24 c b
  ⟨a, b, c⟩

/-- A step that replaces the three words by a round of them and then ends the command. -/
def roundStep (round : Words → Words) (count : State → State) (s : State) : Host.Outcome State Fault Refusal :=
  match s.words with
  | some t => .next (count (s.setWords (round t))).finish
  | none => .fault .noValue

/-- The step lines of ROTL (R61). -/
def rotlStep (x : WordSel) (sh : BitVec 5) (s : State) : Host.Outcome State Fault Refusal :=
  match s.word x with
  | some w => .next (s.setWord x (rotl32 w sh.toNat)).finish
  | none => .fault .noValue

/-- ROTL (R61). RS = 3 names no word: E_ILLEGAL, as the decoder says of its word (R54, R88; DEDUCED, log 14). -/
def execRotl (rs : BitVec 2) (sh : BitVec 5) (s : State) : Host.Outcome State Fault Refusal :=
  match selectWord rs with
  | some x => command (.rotl x sh) (fun s => acceptIf (s.wordOk x) .uninit (fun s => s.start (.rotl x sh)) s) (rotlStep x sh) s
  | none => offer (fun s => .next (raiseError .illegal s)) s

/-- MIX (R62). -/
def execMix (s : State) : Host.Outcome State Fault Refusal :=
  command .mix (fun s => acceptIf s.wordsOk .uninit (fun s => s.start .mix) s)
    (roundStep mix (fun s => { s with nmix := s.nmix + 1 })) s

/-- FINAL (R63). -/
def execFinal (s : State) : Host.Outcome State Fault Refusal :=
  command .final (fun s => acceptIf s.wordsOk .uninit (fun s => s.start .final) s)
    (roundStep final (fun s => { s with nfin := s.nfin + 1 })) s

end Sys2Proof.Machine
end

