-- ==== Sys2Proof/Machine/HashFamily.lean ====
section
/-!
DEFINITION. The hash family (41_hash.md): INIT (R67), BLOCK (R68), TAIL (R69) and HASH (R70), the last made of the step bodies of the
other three. A step body is a command's step lines without the last one, `PEND <- none; BUSY <- 0`.
-/
namespace Sys2Proof.Machine

/-- The step body of INIT (R67). -/
def initBody (s : State) : State :=
  { s with
    a := some (iv s.len s.seed)
    b := some (iv s.len s.seed)
    c := some (iv s.len s.seed)
    rem := s.len
    cur := s.kaddr
    nmix := 0
    nfin := 0
    active := true }

/-- The mark of U2 for a step that reads the `n` key bytes at `CUR` (log 4). -/
def markBytes (n : Nat) (s : State) : State :=
  { s with tainted := s.tainted || !s.kmem.written s.cur.toNat n }

/-- What a BLOCK step does to the words `t` (R68): it adds the twelve key bytes at CUR and mixes. -/
def absorbBlock (t : Words) (s : State) : State :=
  { (markBytes 12 s).setWords (mix (addBlock s.kmem.byte s.cur.toNat t)) with
    nmix := s.nmix + 1
    cur := s.cur + 12
    rem := s.rem - 12 }

/-- The step body of BLOCK (R68). -/
def blockBody (s : State) : Host.Outcome State Fault Refusal :=
  match s.words with
  | some t => if s.kmem.holds s.cur.toNat 12 then .next (absorbBlock t s) else .fault .beyondKeyMemory
  | none => .fault .noValue

/-- What a TAIL step makes of the words `t` (R69): the `r` tail bytes are added, and a non-empty tail is finalized. -/
def tailWords (byte : Nat → Byte) (p r : Nat) (t : Words) : Words :=
  if 1 ≤ r then final (tailacc byte p r t) else tailacc byte p r t

/-- What a TAIL step does to the words `t` (R69). -/
def absorbTail (t : Words) (s : State) : State :=
  { (markBytes s.rem.toNat s).setWords (tailWords s.kmem.byte s.cur.toNat s.rem.toNat t) with
    nfin := if 1 ≤ s.rem.toNat then s.nfin + 1 else s.nfin
    cur := s.cur + s.rem
    rem := 0
    active := false
    done := true }

/-- The step body of TAIL (R69). -/
def tailBody (s : State) : Host.Outcome State Fault Refusal :=
  match s.words with
  | some t => if s.kmem.holds s.cur.toNat s.rem.toNat then .next (absorbTail t s) else .fault .beyondKeyMemory
  | none => .fault .noValue

/-- INIT (R67). -/
def execInit (s : State) : Host.Outcome State Fault Refusal :=
  command .init (fun s => acceptIf s.lengthOk .length (fun s => s.start .init) s) (fun s => .next (initBody s).finish) s

/-- BLOCK (R68). -/
def execBlock (s : State) : Host.Outcome State Fault Refusal :=
  command .block (fun s => acceptIf s.blockOk .seq (fun s => s.start .block) s)
    (fun s => andThen (blockBody s) State.finish) s

/-- TAIL (R69). Its acceptance leaves DONE as it is (R24). -/
def execTail (s : State) : Host.Outcome State Fault Refusal :=
  command .tail (fun s => acceptIf s.tailOk .seq (fun s => { s with pend := .tail }) s)
    (fun s => andThen (tailBody s) State.finish) s

/-- HASH's step at PEND = HASH_BODY (R70): a BLOCK step while REM > 12, then the TAIL step that ends the command. -/
def hashBodyStep (s : State) : Host.Outcome State Fault Refusal :=
  if 12 < s.rem.toNat then blockBody s else andThen (tailBody s) State.finish

/-- HASH (R70). -/
def execHash (s : State) : Host.Outcome State Fault Refusal :=
  if s.pend = .hashBody then hashBodyStep s
  else command .hashInit (fun s => acceptIf s.lengthOk .length (fun s => s.start .hashInit) s)
    (fun s => .next { initBody s with pend := .hashBody }) s

end Sys2Proof.Machine
end

