-- ==== Sys2Proof/Machine/Idle.lean ====
section
/-!
DEFINITION. NOP (R82), the one command without an effect.
-/
namespace Sys2Proof.Machine

/-- NOP (R82): acceptance returns at once and no step follows; while BUSY = 1 it is dropped like any command (R78). -/
def execNop (s : State) : Host.Outcome State Fault Refusal := offer .next s

end Sys2Proof.Machine
end

