-- ==== Sys2Proof/Machine/Dispatch.lean ====
section
/-!
DEFINITION. `exec`: one arm per command. A meaning runs the command's accept lines where PEND is none and its step lines where PEND is the
command (log 8).
-/
namespace Sys2Proof.Machine
open Sys2Proof

def exec (i : Instr) (s : State) : Host.Outcome State Fault Refusal :=
  match i with
  | .nop => Sys2Proof.Machine.execNop s
  | .init => Sys2Proof.Machine.execInit s
  | .block => Sys2Proof.Machine.execBlock s
  | .tail => Sys2Proof.Machine.execTail s
  | .hash => Sys2Proof.Machine.execHash s
  | .mix => Sys2Proof.Machine.execMix s
  | .final => Sys2Proof.Machine.execFinal s
  | .rotl rs sh => Sys2Proof.Machine.execRotl rs sh s

end Sys2Proof.Machine
end

