-- ==== Sys2Proof/Machine/HostPort.lean ====
section
/-!
DEFINITION. The events of the total order (R45): the host's transactions (R76 to R80), the engine's turn (R81), the reset input (R105) and
the pseudo-operation `wait` (R85); and the program notation of R84 as lists of events.
-/
namespace Sys2Proof.Machine

/-- The register that an index names (R13). -/
def Reg.ofIndex (idx : BitVec 4) : Reg :=
  match idx.toNat with
  | 0 => .cmd
  | 1 => .status
  | 2 => .len
  | 3 => .seed
  | 4 => .kaddr
  | 5 => .a
  | 6 => .b
  | 7 => .c
  | 8 => .rem
  | 9 => .cur
  | 10 => .nmix
  | 11 => .nfin
  | 12 => .rsv12
  | 13 => .rsv13
  | 14 => .rsv14
  | _ => .rsv15

/-- The index of a register (R13, R84). -/
def Reg.index : Reg → BitVec 4
  | .cmd => 0#4
  | .status => 1#4
  | .len => 2#4
  | .seed => 3#4
  | .kaddr => 4#4
  | .a => 5#4
  | .b => 6#4
  | .c => 7#4
  | .rem => 8#4
  | .cur => 9#4
  | .nmix => 10#4
  | .nfin => 11#4
  | .rsv12 => 12#4
  | .rsv13 => 13#4
  | .rsv14 => 14#4
  | .rsv15 => 15#4

/-! ## Reads (R76) -/

/-- The value a register holds for a reader; none where a state word holds no value (R13, R15, R22, R27, R28). -/
def State.regValue (s : State) : Reg → Option Word
  | .cmd => some 0
  | .status => some s.status
  | .len => some s.len
  | .seed => some s.seed
  | .kaddr => some s.kaddr
  | .a => s.a
  | .b => s.b
  | .c => s.c
  | .rem => some s.rem
  | .cur => some s.cur
  | .nmix => some s.nmix
  | .nfin => some s.nfin
  | .rsv12 => some 0
  | .rsv13 => some 0
  | .rsv14 => some 0
  | .rsv15 => some 0

/-- `rd idx` (R76): no side effect on the engine, whatever BUSY is. A word without a value answers a free value, marked (R15, U1, log 5). -/
def hostRead (idx : BitVec 4) (s : State) : State :=
  match s.regValue (Reg.ofIndex idx) with
  | some v => { s with answer := some ⟨idx, v, false⟩ }
  | none => { s with answer := some ⟨idx, Config.unspecifiedRead s.freeReads, true⟩, freeReads := s.freeReads + 1 }

/-! ## Writes (R77, R78, R79, R80) -/

/-- Acceptance of a word written to CMD while BUSY = 0 (R80). Decoding comes first (R93). -/
def accept (w : Word) (s : State) : Host.Outcome State Fault Refusal :=
  match decode w with
  | .illegal _ => .next (raiseError .illegal s)
  | .command i => exec i s

/-- A host write of a state word while BUSY = 0 (R15): the value, its valid bit, and DONE <- 0. -/
def writeWord (x : WordSel) (v : Word) (s : State) : State := { s.setWord x v with done := false }

/-- A register write made while BUSY = 0 (R77). -/
def writeIdle (r : Reg) (v : Word) (s : State) : Host.Outcome State Fault Refusal :=
  match r with
  | .cmd => accept v s
  | .status => .next (clearStatus v s)
  | .len => .next { s with len := v }
  | .seed => .next { s with seed := v }
  | .kaddr => .next { s with kaddr := v }
  | .a => .next (writeWord .A v s)
  | .b => .next (writeWord .B v s)
  | .c => .next (writeWord .C v s)
  | .rem => .next s
  | .cur => .next s
  | .nmix => .next s
  | .nfin => .next s
  | .rsv12 => .next s
  | .rsv13 => .next s
  | .rsv14 => .next s
  | .rsv15 => .next s

/-- `wr idx, v` (R77, R78): while BUSY = 1 every write but one to STATUS is dropped. -/
def hostWrite (idx : BitVec 4) (v : Word) (s : State) : Host.Outcome State Fault Refusal :=
  if s.busy && Reg.ofIndex idx != .status then .next s.drop else writeIdle (Reg.ofIndex idx) v s

/-- `KeyWrite(addr, v)` (R79); while BUSY = 1 it is dropped (R78). -/
def hostKeyWrite (addr : Word) (v : Byte) (s : State) : State :=
  if s.busy then s.drop else { s with kmem := s.kmem.write addr.toNat v }

/-! ## The engine's turn, reset and wait -/

/-- The engine's turn (R81): the step lines of the pending command; no step when PEND is none (R104, log 11). -/
def engineTurn (s : State) : Host.Outcome State Fault Refusal :=
  match pendingInstr s.pend with
  | some i => exec i s
  | none => .next s

/-- The reset input (R105): every field of 10_state.md takes its reset value and KMEM is unchanged (R106). The host's side of the order
goes on (log 13). -/
def resetInput (s : State) : State :=
  { State.reset with kmem := s.kmem, inbox := s.inbox, answer := s.answer, freeReads := s.freeReads }

/-- One `rd STATUS` of `wait` (R85). While BUSY was 1 the engine gets a turn and the wait goes on (weak fairness, R113). -/
def hostWait (s : State) : State :=
  if s.busy then { hostRead Reg.status.index s with inbox := .engine :: .wait :: s.inbox } else hostRead Reg.status.index s

/-- One event of the total order (R45). -/
def handle (e : Event) (s : State) : Host.Outcome State Fault Refusal :=
  match e with
  | .regRead idx => .next (hostRead idx s)
  | .regWrite idx v => hostWrite idx v s
  | .keyWrite addr v => .next (hostKeyWrite addr v s)
  | .engine => engineTurn s
  | .reset => .next (resetInput s)
  | .wait => .next (hostWait s)

/-- The next event of the inbox; with an empty inbox it is the engine's turn, and an idle engine keeps all its state (R104, R113, log 1). -/
def nextEvent (s : State) : Host.Outcome State Fault Refusal :=
  match s.inbox with
  | [] => engineTurn s
  | e :: rest => handle e { s with inbox := rest }

/-- The machine with the word `w` as the host's next CMD write, and idle, so that the write is accepted (R78, R80, log 2). -/
def offerCommand (w : Word) (s : State) : State :=
  { s with pend := .none, inbox := .regWrite Reg.cmd.index w :: s.inbox }

/-! ## Program notation (R84, R85) -/

/-- `wr REG, VALUE`. -/
def lineWr (r : Reg) (v : Word) : List Event := [.regWrite r.index v]

/-- `rd REG`. -/
def lineRd (r : Reg) : List Event := [.regRead r.index]

/-- `kw ADDR, BYTE ...`: `KeyWrite(ADDR+j, BYTE_j)` for j = 0, 1, ... -/
def lineKw (addr : Word) : List Byte → List Event
  | [] => []
  | v :: rest => .keyWrite addr v :: lineKw (addr + 1) rest

/-- `cmd COMMAND` = `wr CMD, encode(COMMAND)`. -/
def lineCmd (i : Instr) : List Event := lineWr .cmd (encode i)

/-- `wait`. -/
def lineWait : List Event := [.wait]

/-- `clr` = `wr STATUS, 0x0000000E`. -/
def lineClr : List Event := lineWr .status 0x0000000E#32

/-- `hashkey k, n, s`. -/
def lineHashkey (k n seed : Word) : List Event :=
  lineWr .len n ++ lineWr .seed seed ++ lineWr .kaddr k ++ lineCmd .hash ++ lineWait

end Sys2Proof.Machine
end

