-- ==== Sys2Proof/Machine/Step.lean ====
section
/-!
DEFINITION. One step of the machine: the next event of the total order (R45).
-/
namespace Sys2Proof.Machine

/-- One event: the next one of the inbox, or the engine's turn where the inbox is empty. -/
def step (s : State) : Host.Outcome State Fault Refusal := nextEvent s

/-- `s` with the instruction of a table row placed where the next step takes it: as the host's next write to CMD (log 2). -/
def State.withFetchWord (s : State) (nbits w : Nat) : State := offerCommand (BitVec.ofNat 32 (w % 2 ^ nbits)) s

end Sys2Proof.Machine
end

