-- ==== Sys2Proof/Machine/Jhash.lean ====
section
/-!
DEFINITION. The hash as one pure function of a key, its length and a seed (R71), and its number of blocks (R72). The engine is held
against it by statements; no step calls it.
-/
namespace Sys2Proof.Machine

/-- The while loop of R71 at offset `o` with `r` bytes left, and what follows it. Each pass takes 12 bytes, so `fuel` = `r` is enough. -/
def jhashLoop (key : Nat → Byte) : Nat → Nat → Nat → Words → Words
  | 0, o, r, t => tailWords key o r t
  | fuel + 1, o, r, t =>
    if 12 < r then jhashLoop key fuel (o + 12) (r - 12) (mix (addBlock key o t)) else tailWords key o r t

/-- The three words at the end of `jhash(key, n, s)` (R71). -/
def jhashWords (key : Nat → Byte) (n seed : Word) : Words :=
  jhashLoop key n.toNat 0 n.toNat ⟨iv n seed, iv n seed, iv n seed⟩

/-- `jhash(key, n, s)` (R71): the third word. -/
def jhash (key : Nat → Byte) (n seed : Word) : Word := (jhashWords key n seed).c

/-- The number of Mix Rounds of a key of `n` bytes (R72): 0 for the empty key, else (n - 1) div 12. -/
def nblocks (n : Nat) : Nat := (n - 1) / 12

/-- The number of Finalization Rounds of a key of `n` bytes (R72). -/
def nfinals (n : Nat) : Nat := if n = 0 then 0 else 1

/-- The key of R34 as the engine would read it now: key[j] = KMEM[KADDR + j]. -/
def State.key (s : State) (j : Nat) : Byte := s.kmem.byte (s.kaddr.toNat + j)

/-- A command that is accepted and takes its one step before anything else happens: the host issues it and waits (R71, R85). -/
def issue (i : Instr) (s : State) : Host.Outcome State Fault Refusal :=
  match exec i s with
  | .next t => exec i t
  | .fault r => .fault r
  | .refused r => .refused r

/-- The commands of a list issued one after the other, each waited for before the next (R71). -/
def issueAll : List Instr → State → Host.Outcome State Fault Refusal
  | [], s => .next s
  | i :: rest, s =>
    match issue i s with
    | .next t => issueAll rest t
    | .fault r => .fault r
    | .refused r => .refused r

/-- The step-by-step sequence of R71 for a key of `n` bytes: INIT, BLOCK while REM > 12, TAIL. -/
def stepwise (n : Nat) : List Instr := .init :: (List.replicate (nblocks n) .block ++ [.tail])

end Sys2Proof.Machine
end

