-- ==== Sys2Proof/Safety.lean ====
section
/-!
DEFINITION. What holds of every state that a run from reset reaches, in the terms the statements use. In such a state no step stops.
-/
namespace Sys2Proof.Machine

/-- What the acceptance checks left true for the pending command (R89, R90, R91); a HASH past its INIT step has an open session (R70). -/
def State.pendOk (s : State) : Bool :=
  match s.pend with
  | .none => true
  | .init => s.lengthOk
  | .hashInit => s.lengthOk
  | .block => s.blockOk
  | .tail => s.tailOk
  | .mix => s.wordsOk
  | .final => s.wordsOk
  | .rotl x _ => s.wordOk x
  | .hashBody => s.active

/-- The invariant of the machine. -/
structure State.Inv (s : State) : Prop where
  /-- The key memory is in its canonical form. -/
  memory : s.kmem.wf = true
  /-- While ACTIVE = 1, AV = BV = CV = 1 and DONE = 0 (R23). -/
  session : s.active = true → s.wordsOk = true ∧ s.done = false
  /-- While ACTIVE = 1 the key's unread bytes end inside KMEM: CUR + REM <= KEYMEM_SIZE (R20, R89). -/
  inside : s.active = true → s.cur.toNat + s.rem.toNat ≤ s.kmem.size
  /-- No byte is left when no session is open (R19, R69). -/
  closed : s.active = false → s.rem = 0
  /-- Whenever BUSY = 1, DONE = 0 (R24). -/
  busy : s.busy = true → s.done = false
  /-- The pending command's checks hold (R92). -/
  pending : s.pendOk = true
  /-- ERR is set exactly when ECODE holds a code (R22, R94). -/
  error : s.err = (s.ecode != .none)

/-- The next event gives the engine its turn: it stands first, or no event is left (R81, log 1). -/
def State.engineNext (s : State) : Bool :=
  match s.inbox with
  | [] => true
  | .engine :: _ => true
  | _ => false

end Sys2Proof.Machine
end

