-- ==== Sys2Proof/WellFormed.lean ====
section
/-!
DEFINITION. Which terms of `Instr` are commands: all but ROTL with RS = 3, which names no state word (R50, R51, R54).
The field widths of `Instr` leave nothing else to check: SH covers exactly 0..31 (R51).
-/
namespace Sys2Proof

/-- The check of R51 and R54 on a command's operands. -/
def Instr.wellFormed : Instr → Bool
  | .nop => true
  | .init => true
  | .block => true
  | .tail => true
  | .hash => true
  | .mix => true
  | .final => true
  | .rotl rs _ => rs != 3#2

end Sys2Proof
end

