-- ==== Sys2Proof/Certificates/Slice0/Obligations.lean ====
section
/-!
DEFINITION. What is claimed of the engine, rule by rule. A statement that says how an instruction completes gives the next state as an equation,
so it gives its frame as well; the frames are stated once more, over every next state, for the families.
-/
open Sys2Proof Sys2Proof.Machine

/-! ## Reset -/

/-- R105: the reset input, at any time and whatever is pending, leaves every field of 10_state.md at its reset value and KMEM unchanged, with no
further step and no error; and `State.reset` holds the same values. -/
def Obligations.ResetInputTakesResetValues : Prop :=
  (∀ (s : State) (rest : List Event), s.inbox = .reset :: rest →
    ∃ t, step s = .next t ∧ t.a = none ∧ t.b = none ∧ t.c = none ∧ t.av = false ∧ t.bv = false ∧ t.cv = false ∧
      t.len = 0 ∧ t.seed = 0 ∧ t.kaddr = 0 ∧ t.rem = 0 ∧ t.cur = 0 ∧ t.nmix = 0 ∧ t.nfin = 0 ∧
      t.busy = false ∧ t.done = false ∧ t.err = false ∧ t.ovr = false ∧ t.active = false ∧ t.ecode.bits = 0x0#4 ∧
      t.status = 0 ∧ t.pend = .none ∧ t.kmem = s.kmem ∧ t.inbox = rest) ∧
  (State.reset.a = none ∧ State.reset.b = none ∧ State.reset.c = none ∧ State.reset.len = 0 ∧ State.reset.seed = 0 ∧
    State.reset.kaddr = 0 ∧ State.reset.rem = 0 ∧ State.reset.cur = 0 ∧ State.reset.nmix = 0 ∧ State.reset.nfin = 0 ∧
    State.reset.status = 0 ∧ State.reset.pend = .none ∧ ∀ addr, State.reset.kmem.read addr = none)

/-- The invariant of `Safety.lean` holds after reset. -/
def Obligations.ResetMeetsTheInvariant : Prop := State.reset.Inv

/-! ## Invariants of every step -/

/-- Every step, whatever event it takes, keeps the invariant: the canonical key memory, what ACTIVE = 1, BUSY = 1 and ERR mean, and the checks
of the pending command. -/
def Obligations.EveryStepKeepsTheInvariant : Prop :=
  ∀ s t : State, s.Inv → step s = .next t → t.Inv

/-- R92, R89: under the invariant no event stops the machine. A step that has begun always completes, and no engine read is beyond KMEM. -/
def Obligations.NoStepStopsUnderTheInvariant : Prop :=
  ∀ s : State, s.Inv → ∃ t, step s = .next t

/-! ## Encoding -/

/-- Decode and encode agree in both directions: a word decodes to a command exactly when the command is well formed and the word is its encoding. -/
def Obligations.WordDecodesExactlyToItsCommand : Prop :=
  ∀ (w : Word) (i : Instr), decode w = .command i ↔ i.wellFormed = true ∧ encode i = w

/-- R53, clause by clause in arithmetic on the word's number, and its count of legal words. -/
def Obligations.DecodeFollowsTheFieldsOfTheWord : Prop :=
  (∀ w : Word, w.toNat % 16 = 7 → (w.toNat / 8192 ≠ 0 ∨ w.toNat / 64 % 4 ≠ 0) → ∃ why, decode w = .illegal why) ∧
  (∀ w : Word, w.toNat % 16 = 7 → w.toNat / 16 % 4 = 3 → ∃ why, decode w = .illegal why) ∧
  (∀ w : Word, w.toNat % 16 = 7 → w.toNat / 8192 = 0 → w.toNat / 64 % 4 = 0 → w.toNat / 16 % 4 ≠ 3 →
    decode w = .command (.rotl (BitVec.ofNat 2 (w.toNat / 16 % 4)) (BitVec.ofNat 5 (w.toNat / 256 % 32)))) ∧
  (∀ w : Word, 8 ≤ w.toNat % 16 → ∃ why, decode w = .illegal why) ∧
  (∀ w : Word, w.toNat % 16 < 7 → w.toNat / 16 ≠ 0 → ∃ why, decode w = .illegal why) ∧
  (∀ w : Word, w.toNat % 16 < 7 → w.toNat / 16 = 0 →
    some (decode w) = ([Decoded.command .nop, .command .init, .command .block, .command .tail, .command .hash, .command .mix,
      .command .final])[w.toNat % 16]?) ∧
  (∃ ws : List Word, ws.Nodup ∧ ws.length = 103 ∧ ∀ w, w ∈ ws ↔ ∃ i, decode w = .command i)

/-- Words written out from R52 and 95_test_vectors.md section 3.8 decode to the commands they stand for, and illegal ones to none. -/
def Obligations.SampleWordsDecodeAsListed : Prop :=
  decode 0x00000000#32 = .command .nop ∧ decode 0x00000001#32 = .command .init ∧ decode 0x00000002#32 = .command .block ∧
  decode 0x00000003#32 = .command .tail ∧ decode 0x00000004#32 = .command .hash ∧ decode 0x00000005#32 = .command .mix ∧
  decode 0x00000006#32 = .command .final ∧ decode 0x00000827#32 = .command (.rotl 2 8) ∧
  decode 0x00001F17#32 = .command (.rotl 1 31) ∧ decode 0x00000107#32 = .command (.rotl 0 1) ∧
  decode 0x00000037#32 = .illegal .noStateWord ∧ decode 0x00002007#32 = .illegal .reservedBits ∧
  decode 0x0000000F#32 = .illegal .reservedOpcode ∧ decode 0x00000100#32 = .illegal .reservedBits

/-! ## How a step runs a command -/

/-- R80: a CMD write with nothing pending whose word decodes to a command runs that command in that step. The step takes the write off the
inbox (the model's own field) and does nothing else around it. -/
def Obligations.StepRunsTheDecodedCommand : Prop :=
  ∀ (s : State) (w : Word) (i : Instr) (rest : List Event),
    s.inbox = .regWrite 0 w :: rest → s.pend = .none → decode w = .command i →
    step s = exec i { s with inbox := rest }

/-- R81, R104: at the engine's turn the step runs the pending command once more, now for its step lines; with nothing pending it changes nothing.
HASH_INIT and HASH_BODY belong to HASH. The turn stands in the inbox or follows when it is empty (the model's choice, log 1). -/
def Obligations.EngineTurnRunsThePendingCommand : Prop :=
  ∀ s : State, s.engineNext = true →
    (s.pend = .none → step s = .next { s with inbox := s.inbox.tail }) ∧
    (s.pend = .init → step s = exec .init { s with inbox := s.inbox.tail }) ∧
    (s.pend = .block → step s = exec .block { s with inbox := s.inbox.tail }) ∧
    (s.pend = .tail → step s = exec .tail { s with inbox := s.inbox.tail }) ∧
    (s.pend = .mix → step s = exec .mix { s with inbox := s.inbox.tail }) ∧
    (s.pend = .final → step s = exec .final { s with inbox := s.inbox.tail }) ∧
    (s.pend = .hashInit ∨ s.pend = .hashBody → step s = exec .hash { s with inbox := s.inbox.tail }) ∧
    (∀ sh, s.pend = .rotl .A sh → step s = exec (.rotl 0 sh) { s with inbox := s.inbox.tail }) ∧
    (∀ sh, s.pend = .rotl .B sh → step s = exec (.rotl 1 sh) { s with inbox := s.inbox.tail }) ∧
    (∀ sh, s.pend = .rotl .C sh → step s = exec (.rotl 2 sh) { s with inbox := s.inbox.tail })

/-- The model's own placing of an instruction (log 2): the next step of `withFetchWord` runs exactly it, on the idle machine. -/
def Obligations.PlacedWordRunsNext : Prop :=
  ∀ (s : State) (i : Instr), i.wellFormed = true →
    step (s.withFetchWord 32 (encode i).toNat) = exec i { s with pend := .none }

/-! ## Errors -/

/-- R88: a CMD write with nothing pending whose word is illegal starts no command; it records E_ILLEGAL unless ERR is already 1. -/
def Obligations.IllegalWordRecordsEIllegal : Prop :=
  ∀ (s : State) (w : Word) (why : Illegal) (rest : List Event),
    s.inbox = .regWrite 0 w :: rest → s.pend = .none → decode w = .illegal why →
    step s = .next (if s.err then { s with inbox := rest } else { s with inbox := rest, err := true, ecode := .illegal })

/-- R89: INIT and HASH are rejected with E_LENGTH exactly when KADDR + LEN > KEYMEM_SIZE, summed without wraparound. -/
def Obligations.LengthIsCheckedAtInitAndHash : Prop :=
  ∀ s : State, s.pend = .none →
    (s.kmem.top.toNat + 1 < s.kaddr.toNat + s.len.toNat →
      exec .init s = .next (if s.err then s else { s with err := true, ecode := .length }) ∧
      exec .hash s = .next (if s.err then s else { s with err := true, ecode := .length })) ∧
    (s.kaddr.toNat + s.len.toNat ≤ s.kmem.top.toNat + 1 →
      exec .init s = .next { s with done := false, pend := .init } ∧
      exec .hash s = .next { s with done := false, pend := .hashInit })

/-- R90: BLOCK is rejected with E_SEQ exactly when no session is open or REM <= 12, TAIL exactly when none is open or REM > 12. -/
def Obligations.SequenceIsCheckedAtBlockAndTail : Prop :=
  ∀ s : State, s.pend = .none →
    (s.active = false ∨ s.rem.toNat ≤ 12 →
      exec .block s = .next (if s.err then s else { s with err := true, ecode := .seq })) ∧
    (s.active = true → 12 < s.rem.toNat → exec .block s = .next { s with done := false, pend := .block }) ∧
    (s.active = false ∨ 12 < s.rem.toNat →
      exec .tail s = .next (if s.err then s else { s with err := true, ecode := .seq })) ∧
    (s.active = true → s.rem.toNat ≤ 12 → exec .tail s = .next { s with pend := .tail })

/-- R91: MIX and FINAL are rejected with E_UNINIT when A, B or C holds no value, ROTL when the word it selects holds none. A word holds no value
only between reset and its first write: no other step takes its value away. -/
def Obligations.MissingWordsAreCheckedAtMixerCommands : Prop :=
  (∀ s : State, s.pend = .none → s.a = none ∨ s.b = none ∨ s.c = none →
    exec .mix s = .next (if s.err then s else { s with err := true, ecode := .uninit }) ∧
    exec .final s = .next (if s.err then s else { s with err := true, ecode := .uninit })) ∧
  (∀ (s : State) (sh : BitVec 5), s.pend = .none →
    (s.a = none → exec (.rotl 0 sh) s = .next (if s.err then s else { s with err := true, ecode := .uninit })) ∧
    (s.b = none → exec (.rotl 1 sh) s = .next (if s.err then s else { s with err := true, ecode := .uninit })) ∧
    (s.c = none → exec (.rotl 2 sh) s = .next (if s.err then s else { s with err := true, ecode := .uninit }))) ∧
  (∀ s t : State, step s = .next t → (∀ rest, s.inbox ≠ .reset :: rest) →
    (s.a ≠ none → t.a ≠ none) ∧ (s.b ≠ none → t.b ≠ none) ∧ (s.c ≠ none → t.c ≠ none))

/-- R94: rejection keeps the first code since ERR was last 0 and changes nothing but ERR and ECODE, whichever command is rejected. The term ROTL
with RS = 3, which no word decodes to, is rejected with E_ILLEGAL (the model's choice, log 14). -/
def Obligations.RejectionChangesOnlyErrAndEcode : Prop :=
  (∀ (s t : State) (i : Instr), s.pend = .none → exec i s = .next t →
    t.err ≠ s.err ∨ t.ecode ≠ s.ecode →
    s.err = false ∧ t.ecode ≠ .none ∧ t = { s with err := true, ecode := t.ecode }) ∧
  (∀ (s : State) (sh : BitVec 5), s.pend = .none →
    exec (.rotl 3 sh) s = .next (if s.err then s else { s with err := true, ecode := .illegal }))

/-- R95, R22: a host write of STATUS, whatever BUSY is, clears DONE, ERR with ECODE, and OVR by bits 1, 2 and 3; it sets nothing and changes nothing
else. -/
def Obligations.StatusWriteOnlyClears : Prop :=
  ∀ (s : State) (v : Word) (rest : List Event), s.inbox = .regWrite 1 v :: rest →
    step s = .next { s with
      inbox := rest
      done := if v.getLsbD 1 then false else s.done
      err := if v.getLsbD 2 then false else s.err
      ecode := if v.getLsbD 2 then .none else s.ecode
      ovr := if v.getLsbD 3 then false else s.ovr }

/-- R22: STATUS reads BUSY, DONE, ERR, OVR, ECODE, AV, BV, CV and ACTIVE at their bits and zero at 31:12; BUSY is "PEND is not none" (R25). -/
def Obligations.StatusReadsItsFields : Prop :=
  ∀ s : State,
    (s.status.getLsbD 0 = true ↔ s.pend ≠ .none) ∧ s.status.getLsbD 1 = s.done ∧ s.status.getLsbD 2 = s.err ∧
    s.status.getLsbD 3 = s.ovr ∧ s.status.extractLsb' 4 4 = s.ecode.bits ∧ s.status.getLsbD 8 = s.a.isSome ∧
    s.status.getLsbD 9 = s.b.isSome ∧ s.status.getLsbD 10 = s.c.isSome ∧ s.status.getLsbD 11 = s.active ∧
    s.status.extractLsb' 12 20 = 0

/-! ## Host transactions -/

/-- R78: while BUSY = 1 a register write to any index but 1 and every key-memory write is dropped, with OVR <- 1 and no other effect; a STATUS write
is carried out. -/
def Obligations.BusyWritesAreDropped : Prop :=
  ∀ (s : State) (rest : List Event), s.pend ≠ .none →
    (∀ idx v, s.inbox = .regWrite idx v :: rest → idx ≠ 1 → step s = .next { s with inbox := rest, ovr := true }) ∧
    (∀ addr v, s.inbox = .keyWrite addr v :: rest → step s = .next { s with inbox := rest, ovr := true }) ∧
    (∀ v, s.inbox = .regWrite 1 v :: rest → step s = .next { s with
      inbox := rest
      done := if v.getLsbD 1 then false else s.done
      err := if v.getLsbD 2 then false else s.err
      ecode := if v.getLsbD 2 then .none else s.ecode
      ovr := if v.getLsbD 3 then false else s.ovr })

/-- R77, R15, R28: register writes while BUSY = 0. LEN, SEED and KADDR are stored; A, B and C take the value and their valid bit and clear DONE;
the read-only and reserved indices ignore the write. -/
def Obligations.IdleRegisterWritesStore : Prop :=
  ∀ (s : State) (v : Word) (rest : List Event), s.pend = .none →
    (s.inbox = .regWrite 2 v :: rest → step s = .next { s with inbox := rest, len := v }) ∧
    (s.inbox = .regWrite 3 v :: rest → step s = .next { s with inbox := rest, seed := v }) ∧
    (s.inbox = .regWrite 4 v :: rest → step s = .next { s with inbox := rest, kaddr := v }) ∧
    (s.inbox = .regWrite 5 v :: rest → step s = .next { s with inbox := rest, a := some v, done := false }) ∧
    (s.inbox = .regWrite 6 v :: rest → step s = .next { s with inbox := rest, b := some v, done := false }) ∧
    (s.inbox = .regWrite 7 v :: rest → step s = .next { s with inbox := rest, c := some v, done := false }) ∧
    (∀ idx : BitVec 4, 8 ≤ idx.toNat → s.inbox = .regWrite idx v :: rest → step s = .next { s with inbox := rest })

/-- R76, R13, R27, R28: a register read answers the register's value at any time and changes nothing of the engine; CMD and 12 to 15 read 0. -/
def Obligations.RegisterReadsAnswerTheRegister : Prop :=
  ∀ (s : State) (rest : List Event) (idx : BitVec 4) (v : Word), s.inbox = .regRead idx :: rest →
    (some v = [some 0, some s.status, some s.len, some s.seed, some s.kaddr, s.a, s.b, s.c, some s.rem, some s.cur, some s.nmix,
      some s.nfin, some 0, some 0, some 0, some 0].getD idx.toNat none →
    step s = .next { s with inbox := rest, answer := some ⟨idx, v, false⟩ })

/-- R15, U1 (the model's choice, log 5): a read of A, B or C while it holds no value completes with some u32, which is marked, and changes nothing of
the engine. The statement holds whatever that value is. -/
def Obligations.ReadOfAMissingWordIsMarked : Prop :=
  ∀ (s : State) (rest : List Event) (idx : BitVec 4), s.inbox = .regRead idx :: rest →
    (idx = 5 ∧ s.a = none) ∨ (idx = 6 ∧ s.b = none) ∨ (idx = 7 ∧ s.c = none) →
    ∃ v n, step s = .next { s with inbox := rest, answer := some ⟨idx, v, true⟩, freeReads := n }

/-- R79, R78: a key-memory write while BUSY = 0 sets exactly its byte if the address lies in KMEM and has no effect beyond it; while BUSY = 1 it
is dropped. -/
def Obligations.KeyWriteSetsItsByteAlone : Prop :=
  ∀ (s : State) (addr : Word) (v : Byte) (rest : List Event), s.kmem.wf = true → s.inbox = .keyWrite addr v :: rest →
    (s.pend = .none → addr.toNat < s.kmem.size →
      ∃ m, step s = .next { s with inbox := rest, kmem := m } ∧ m.size = s.kmem.size ∧ m.read addr.toNat = some v ∧
        ∀ x, x ≠ addr.toNat → m.read x = s.kmem.read x) ∧
    (s.pend = .none → s.kmem.size ≤ addr.toNat → step s = .next { s with inbox := rest }) ∧
    (s.pend ≠ .none → step s = .next { s with inbox := rest, ovr := true })

/-- R85: `wait` reads STATUS and ends when BUSY is 0; while BUSY is 1 the engine gets a turn and it reads again. -/
def Obligations.WaitRereadsStatusWhileBusy : Prop :=
  ∀ (s : State) (rest : List Event), s.inbox = .wait :: rest →
    (s.pend = .none → step s = .next { s with inbox := rest, answer := some ⟨1, s.status, false⟩ }) ∧
    (s.pend ≠ .none →
      step s = .next { s with inbox := .engine :: .wait :: rest, answer := some ⟨1, s.status, false⟩ })

/-! ## Commands of the mixer family -/

/-- R82: NOP with nothing pending has no effect at all; its word is 0 and no other word of OP 0 is NOP. Offered while a command is pending it is
dropped (R78). -/
def Obligations.NopHasNoEffect : Prop :=
  (∀ s : State, s.pend = .none → exec .nop s = .next s) ∧
  (∀ s : State, s.pend ≠ .none → exec .nop s = .next { s with ovr := true }) ∧
  decode 0#32 = .command .nop ∧
  (∀ w : Word, w.toNat % 16 = 0 → w ≠ 0 → ∃ why, decode w = .illegal why)

/-- R61: ROTL's words, its acceptance and rejections, its step, for each state word and every SH, and its worked example. -/
def Obligations.RotlFollowsItsRule : Prop :=
  (∀ (rs : BitVec 2) (sh : BitVec 5), rs ≠ 3 →
    decode (BitVec.ofNat 32 (7 + rs.toNat * 16 + sh.toNat * 256)) = .command (.rotl rs sh)) ∧
  (∀ w : Word, w.toNat % 16 = 7 → (w.toNat / 16 % 4 = 3 ∨ w.toNat / 64 % 4 ≠ 0 ∨ w.toNat / 8192 ≠ 0) → ∃ why, decode w = .illegal why) ∧
  (∀ (s : State) (sh : BitVec 5) (v : Word), s.pend = .none →
    (s.a = some v → exec (.rotl 0 sh) s = .next { s with done := false, pend := .rotl .A sh }) ∧
    (s.b = some v → exec (.rotl 1 sh) s = .next { s with done := false, pend := .rotl .B sh }) ∧
    (s.c = some v → exec (.rotl 2 sh) s = .next { s with done := false, pend := .rotl .C sh })) ∧
  (∀ (s : State) (sh : BitVec 5), s.pend = .none →
    (s.a = none → exec (.rotl 0 sh) s = .next (if s.err then s else { s with err := true, ecode := .uninit })) ∧
    (s.b = none → exec (.rotl 1 sh) s = .next (if s.err then s else { s with err := true, ecode := .uninit })) ∧
    (s.c = none → exec (.rotl 2 sh) s = .next (if s.err then s else { s with err := true, ecode := .uninit }))) ∧
  (∀ (s : State) (sh : BitVec 5) (v : Word),
    (s.pend = .rotl .A sh → s.a = some v →
      exec (.rotl 0 sh) s = .next { s with a := some (v.rotateLeft sh.toNat), pend := .none }) ∧
    (s.pend = .rotl .B sh → s.b = some v →
      exec (.rotl 1 sh) s = .next { s with b := some (v.rotateLeft sh.toNat), pend := .none }) ∧
    (s.pend = .rotl .C sh → s.c = some v →
      exec (.rotl 2 sh) s = .next { s with c := some (v.rotateLeft sh.toNat), pend := .none })) ∧
  (0x36FF91DB#32).rotateLeft 8 = 0xFF91DB36#32

/-- R62: MIX's word, acceptance, rejection, step and worked example. -/
def Obligations.MixFollowsItsRule : Prop :=
  decode 0x00000005#32 = .command .mix ∧ (∀ w : Word, w.toNat % 16 = 5 → w ≠ 5 → ∃ why, decode w = .illegal why) ∧
  (∀ (s : State) (x y z : Word), s.pend = .none → s.a = some x → s.b = some y → s.c = some z →
    exec .mix s = .next { s with done := false, pend := .mix }) ∧
  (∀ s : State, s.pend = .none → s.a = none ∨ s.b = none ∨ s.c = none →
    exec .mix s = .next (if s.err then s else { s with err := true, ecode := .uninit })) ∧
  (∀ (s : State) (x y z : Word), s.pend = .mix → s.a = some x → s.b = some y → s.c = some z →
    exec .mix s = .next { s with
      a := some (mix ⟨x, y, z⟩).a
      b := some (mix ⟨x, y, z⟩).b
      c := some (mix ⟨x, y, z⟩).c
      nmix := s.nmix + 1
      pend := .none }) ∧
  mix ⟨0x00000001, 0x00000002, 0x00000003⟩ = ⟨0x877D02A0, 0xCD175A8D, 0xE3FC5C22⟩

/-- R63: FINAL's word, acceptance, rejection, step and worked example; running it twice is not the identity. -/
def Obligations.FinalFollowsItsRule : Prop :=
  decode 0x00000006#32 = .command .final ∧ (∀ w : Word, w.toNat % 16 = 6 → w ≠ 6 → ∃ why, decode w = .illegal why) ∧
  (∀ (s : State) (x y z : Word), s.pend = .none → s.a = some x → s.b = some y → s.c = some z →
    exec .final s = .next { s with done := false, pend := .final }) ∧
  (∀ s : State, s.pend = .none → s.a = none ∨ s.b = none ∨ s.c = none →
    exec .final s = .next (if s.err then s else { s with err := true, ecode := .uninit })) ∧
  (∀ (s : State) (x y z : Word), s.pend = .final → s.a = some x → s.b = some y → s.c = some z →
    exec .final s = .next { s with
      a := some (final ⟨x, y, z⟩).a
      b := some (final ⟨x, y, z⟩).b
      c := some (final ⟨x, y, z⟩).c
      nfin := s.nfin + 1
      pend := .none }) ∧
  final ⟨0x00000001, 0x00000002, 0x00000003⟩ = ⟨0xC0BBAC72, 0xD6302D23, 0x36FF91DB⟩ ∧
  final (final ⟨0x00000001, 0x00000002, 0x00000003⟩) ≠ ⟨0x00000001, 0x00000002, 0x00000003⟩

/-- R57: mix is six sub-steps of one form, `x -= z; x ^= rotl(z, k); z += y`, with k = 4, 6, 8, 16, 19, 4 and the roles (x, y, z) moving on from
(a, b, c) to (b, c, a) to (c, a, b). The triple here is (x, y, z), so the next sub-step finds (y, z, x). -/
def Obligations.MixRoundIsItsSixSubSteps : Prop :=
  ∀ t : Words,
    let r := [4, 6, 8, 16, 19, 4].foldl (fun (q : Word × Word × Word) k => (q.2.1, q.2.2 + q.2.1, (q.1 - q.2.2) ^^^ q.2.2.rotateLeft k))
      (t.a, t.b, t.c)
    mix t = ⟨r.1, r.2.1, r.2.2⟩

/-- R59: final is seven sub-steps of one form, `z ^= y; z -= rotl(y, k)`, with k = 14, 11, 25, 16, 4, 14, 24 and the roles (z, y) moving on from
(c, b) to (a, c) to (b, a). The triple here is (z, y, the third word), so the next sub-step finds (third, z, y); after seven it is (a, c, b). -/
def Obligations.FinalizationRoundIsItsSevenSubSteps : Prop :=
  ∀ t : Words,
    let r := [14, 11, 25, 16, 4, 14, 24].foldl (fun (q : Word × Word × Word) k => (q.2.2, (q.1 ^^^ q.2.1) - q.2.1.rotateLeft k, q.2.1))
      (t.c, t.b, t.a)
    final t = ⟨r.1, r.2.2, r.2.1⟩

/-- R55: bit i of rotl32(w, s) is bit (i - s) mod 32 of w, for every shift 0 .. 31; in particular a shift by 0 is the identity, and a shift by
s > 0 is the two shifts or-ed. -/
def Obligations.RotateMovesEachBit : Prop :=
  ∀ (w : Word) (s : Nat), s ≤ 31 →
    (∀ i, i < 32 → (rotl32 w s).getLsbD i = w.getLsbD ((i + 32 - s) % 32)) ∧
    (s = 0 → rotl32 w s = w) ∧ (0 < s → rotl32 w s = (w <<< s) ||| (w >>> (32 - s)))

/-- R56: the laws of rotl32. -/
def Obligations.RotateLaws : Prop :=
  (∀ w : Word, rotl32 w 0 = w) ∧
  (∀ (w : Word) (s t : Nat), s ≤ 31 → t ≤ 31 → rotl32 (rotl32 w s) t = rotl32 w ((s + t) % 32)) ∧
  (∀ s : Nat, s ≤ 31 → Function.Bijective (fun w : Word => rotl32 w s) ∧
    ∀ w : Word, rotl32 (rotl32 w s) ((32 - s) % 32) = w ∧ rotl32 (rotl32 w ((32 - s) % 32)) s = w) ∧
  (∀ s : Nat, s ≤ 31 → rotl32 0#32 s = 0#32 ∧ rotl32 0xFFFFFFFF#32 s = 0xFFFFFFFF#32) ∧
  (∀ (w : Word) (s : Nat), s ≤ 31 →
    (List.range 32).countP (fun i => (rotl32 w s).getLsbD i) = (List.range 32).countP (fun i => w.getLsbD i))

/-- R58: the Mix Round loses nothing, and maps zeros to zeros. It is a function of its three inputs by its type. -/
def Obligations.MixRoundIsBijective : Prop :=
  Function.Bijective mix ∧ mix ⟨0, 0, 0⟩ = ⟨0, 0, 0⟩

/-- R60: the Finalization Round loses nothing, and maps zeros to zeros. It is a function of its three inputs by its type. -/
def Obligations.FinalizationRoundIsBijective : Prop :=
  Function.Bijective final ∧ final ⟨0, 0, 0⟩ = ⟨0, 0, 0⟩

/-! ## Commands of the hash family -/

/-- R67: INIT's word, acceptance, rejection and step. -/
def Obligations.InitFollowsItsRule : Prop :=
  decode 0x00000001#32 = .command .init ∧ (∀ w : Word, w.toNat % 16 = 1 → w ≠ 1 → ∃ why, decode w = .illegal why) ∧
  (∀ s : State, s.pend = .none → s.kaddr.toNat + s.len.toNat ≤ s.kmem.size →
    exec .init s = .next { s with done := false, pend := .init }) ∧
  (∀ s : State, s.pend = .none → s.kmem.size < s.kaddr.toNat + s.len.toNat →
    exec .init s = .next (if s.err then s else { s with err := true, ecode := .length })) ∧
  (∀ s : State, s.pend = .init →
    exec .init s = .next { s with
      a := some (0xdeadbeef + s.len + s.seed)
      b := some (0xdeadbeef + s.len + s.seed)
      c := some (0xdeadbeef + s.len + s.seed)
      rem := s.len
      cur := s.kaddr
      nmix := 0
      nfin := 0
      active := true
      pend := .none })

/-- R68: BLOCK's word, acceptance, rejection and step. The step completes whether its bytes were ever written or not. By the last clause it marks the
state exactly when one of its twelve key bytes holds no value, and an earlier mark stays: the mark U2 asks for, in the form the model chose (log 4). -/
def Obligations.BlockFollowsItsRule : Prop :=
  decode 0x00000002#32 = .command .block ∧ (∀ w : Word, w.toNat % 16 = 2 → w ≠ 2 → ∃ why, decode w = .illegal why) ∧
  (∀ s : State, s.pend = .none → s.active = true → 12 < s.rem.toNat →
    exec .block s = .next { s with done := false, pend := .block }) ∧
  (∀ s : State, s.pend = .none → s.active = false ∨ s.rem.toNat ≤ 12 →
    exec .block s = .next (if s.err then s else { s with err := true, ecode := .seq })) ∧
  (∀ (s : State) (x y z : Word), s.pend = .block → s.a = some x → s.b = some y → s.c = some z →
    s.cur.toNat + 12 ≤ s.kmem.size →
    ∃ t, exec .block s = .next t ∧
      (t.a, t.b, t.c) =
        (let m := mix ⟨x + le32 s.kmem.byte s.cur.toNat, y + le32 s.kmem.byte (s.cur.toNat + 4), z + le32 s.kmem.byte (s.cur.toNat + 8)⟩
         (some m.a, some m.b, some m.c)) ∧
      t = { s with
        a := t.a, b := t.b, c := t.c, nmix := s.nmix + 1, cur := s.cur + 12, rem := s.rem - 12, pend := .none, tainted := t.tainted } ∧
      (t.tainted = true ↔ s.tainted = true ∨ ∃ j, j < 12 ∧ s.kmem.read (s.cur.toNat + j) = none))

/-- R69: TAIL's word, acceptance (which leaves DONE as it is), rejection and step, with its empty-tail case. By the last clause the step marks the state
exactly when one of its REM key bytes holds no value, and an earlier mark stays: the mark U2 asks for, in the form the model chose (log 4). -/
def Obligations.TailFollowsItsRule : Prop :=
  decode 0x00000003#32 = .command .tail ∧ (∀ w : Word, w.toNat % 16 = 3 → w ≠ 3 → ∃ why, decode w = .illegal why) ∧
  (∀ s : State, s.pend = .none → s.active = true → s.rem.toNat ≤ 12 → exec .tail s = .next { s with pend := .tail }) ∧
  (∀ s : State, s.pend = .none → s.active = false ∨ 12 < s.rem.toNat →
    exec .tail s = .next (if s.err then s else { s with err := true, ecode := .seq })) ∧
  (∀ (s : State) (x y z : Word), s.pend = .tail → s.rem.toNat ≤ 12 → s.a = some x → s.b = some y → s.c = some z →
    s.cur.toNat + s.rem.toNat ≤ s.kmem.size →
    ∃ t, exec .tail s = .next t ∧
      (1 ≤ s.rem.toNat → (t.a, t.b, t.c) =
        (let f := final (tailacc s.kmem.byte s.cur.toNat s.rem.toNat ⟨x, y, z⟩)
         (some f.a, some f.b, some f.c)) ∧ t.nfin = s.nfin + 1) ∧
      (s.rem = 0 → (t.a, t.b, t.c) = (some x, some y, some z) ∧ t.nfin = s.nfin) ∧
      t = { s with
        a := t.a, b := t.b, c := t.c, nfin := t.nfin, cur := s.cur + s.rem, rem := 0, active := false, done := true,
        pend := .none, tainted := t.tainted } ∧
      (t.tainted = true ↔ s.tainted = true ∨ ∃ j, j < s.rem.toNat ∧ s.kmem.read (s.cur.toNat + j) = none))

/-- R70: HASH's word, acceptance, rejection, and its three kinds of step: the INIT body, a BLOCK body while REM > 12, and the TAIL body that ends it.
A body is all of the command's step but the end of the command, the mark of U2 included (log 4). -/
def Obligations.HashRunsTheBodiesOfInitBlockAndTail : Prop :=
  decode 0x00000004#32 = .command .hash ∧ (∀ w : Word, w.toNat % 16 = 4 → w ≠ 4 → ∃ why, decode w = .illegal why) ∧
  (∀ s : State, s.pend = .none → s.kaddr.toNat + s.len.toNat ≤ s.kmem.size →
    exec .hash s = .next { s with done := false, pend := .hashInit }) ∧
  (∀ s : State, s.pend = .none → s.kmem.size < s.kaddr.toNat + s.len.toNat →
    exec .hash s = .next (if s.err then s else { s with err := true, ecode := .length })) ∧
  (∀ s : State, s.pend = .hashInit →
    ∃ t, exec .init { s with pend := .init } = .next t ∧ exec .hash s = .next { t with pend := .hashBody }) ∧
  (∀ (s : State) (x y z : Word), s.pend = .hashBody → 12 < s.rem.toNat → s.a = some x → s.b = some y → s.c = some z →
    s.cur.toNat + 12 ≤ s.kmem.size →
    ∃ t, exec .block { s with pend := .block } = .next t ∧ exec .hash s = .next { t with pend := .hashBody }) ∧
  (∀ (s : State) (x y z : Word), s.pend = .hashBody → s.rem.toNat ≤ 12 → s.a = some x → s.b = some y → s.c = some z →
    s.cur.toNat + s.rem.toNat ≤ s.kmem.size →
    ∃ t, exec .tail { s with pend := .tail } = .next t ∧ exec .hash s = .next t)

/-- R37, R64: byte k of le32(p) is the byte at p + k, so the lower address supplies the less significant byte; the order is the same in every state,
for no state enters it. -/
def Obligations.KeyBytesPackLittleEndian : Prop :=
  ∀ (byte : Nat → Byte) (p k : Nat), k < 4 → (le32 byte p).extractLsb' (8 * k) 8 = byte (p + k)

/-- R66: tailacc adds to each word the little-endian value of its present bytes, the missing ones zero: byte j contributes if and only if j < r. -/
def Obligations.TailBytesAddAsLittleEndianWords : Prop :=
  ∀ (byte : Nat → Byte) (p r : Nat) (t : Words), r ≤ 12 →
    tailacc byte p r t =
      ⟨t.a + le32 (fun j => if j < r then byte (p + j) else 0) 0, t.b + le32 (fun j => if j < r then byte (p + j) else 0) 4,
       t.c + le32 (fun j => if j < r then byte (p + j) else 0) 8⟩

/-- R65, R74: the initial value, and that keys of different declared length start from different values. -/
def Obligations.InitialValueSeparatesLengths : Prop :=
  (∀ len seed : Word, (iv len seed).toNat = (0xdeadbeef + len.toNat + seed.toNat) % 2 ^ 32) ∧
  (∀ n m seed : Word, n ≠ m → iv n seed ≠ iv m seed)

/-- R73: jhash of the empty key is 0xdeadbeef + s, and jhash reads no byte at or beyond the key's length. -/
def Obligations.JhashReadsOnlyItsKey : Prop :=
  (∀ (key : Nat → Byte) (seed : Word), jhash key 0 seed = 0xdeadbeef + seed) ∧
  (∀ (key key' : Nat → Byte) (n seed : Word), (∀ j, j < n.toNat → key j = key' j) → jhash key n seed = jhash key' n seed)

/-! ## Whole hashes -/

/-- R70, R71, R72, R75: from every state with nothing pending, an empty inbox and a key that fits KMEM, HASH is accepted, is still pending after every
number of engine steps below 2 + nblocks, and after 2 + nblocks of them has ended with C = jhash of the key and the counts of R72. The empty inbox says
that the engine moves alone (log 1). Nothing else is assumed of the state. -/
def Obligations.HashComputesJhash : Prop :=
  ∀ s : State, s.pend = .none → s.inbox = [] → s.kaddr.toNat + s.len.toNat ≤ s.kmem.size →
    ∃ t u, exec .hash s = .next t ∧
      (∀ k, k < 2 + nblocks s.len.toNat → ∃ v, Sys2Proof.core.run k t = .next v ∧ v.pend ≠ .none) ∧
      Sys2Proof.core.run (2 + nblocks s.len.toNat) t = .next u ∧
      u.c = some (jhash s.key s.len s.seed) ∧ u.pend = .none ∧ u.done = true ∧ u.active = false ∧ u.rem = 0 ∧
      u.cur = s.kaddr + s.len ∧ u.nmix = BitVec.ofNat 32 (nblocks s.len.toNat) ∧ u.nfin = BitVec.ofNat 32 (nfinals s.len.toNat) ∧
      u.len = s.len ∧ u.seed = s.seed ∧ u.kaddr = s.kaddr ∧ u.err = s.err ∧ u.ecode = s.ecode ∧ u.ovr = s.ovr ∧ u.kmem = s.kmem

/-- R71: from every state with nothing pending, an empty inbox (the engine moves alone, log 1) and a key that fits KMEM, INIT, then BLOCK while REM > 12,
then TAIL, each waited for, ends in the very state that HASH ends in. -/
def Obligations.StepwiseSequenceEqualsHash : Prop :=
  ∀ s : State, s.pend = .none → s.inbox = [] → s.kaddr.toNat + s.len.toNat ≤ s.kmem.size →
    ∃ t u, exec .hash s = .next t ∧ Sys2Proof.core.run (2 + nblocks s.len.toNat) t = .next u ∧
      issueAll (stepwise s.len.toNat) s = .next u

/-- R73: two runs of HASH from states with nothing pending, an empty inbox (the engine moves alone, log 1) and a key that fits KMEM, which agree on LEN,
SEED and the key's bytes and need agree on nothing else, end with the same A, B, C, REM and counts. -/
def Obligations.HashDependsOnlyOnLengthSeedAndKey : Prop :=
  ∀ s s' : State, s.pend = .none → s'.pend = .none → s.inbox = [] → s'.inbox = [] →
    s.kaddr.toNat + s.len.toNat ≤ s.kmem.size → s'.kaddr.toNat + s'.len.toNat ≤ s'.kmem.size →
    s.len = s'.len → s.seed = s'.seed → (∀ j, j < s.len.toNat → s.key j = s'.key j) →
    ∃ t u t' u', exec .hash s = .next t ∧ Sys2Proof.core.run (2 + nblocks s.len.toNat) t = .next u ∧
      exec .hash s' = .next t' ∧ Sys2Proof.core.run (2 + nblocks s.len.toNat) t' = .next u' ∧
      u.a = u'.a ∧ u.b = u'.b ∧ u.c = u'.c ∧ u.nmix = u'.nmix ∧ u.nfin = u'.nfin ∧ u.rem = u'.rem

/-- R75, R113: under the invariant every pending command ends, with the engine alone moving, within 2 + (LEN + REM) div 12 steps. -/
def Obligations.EveryPendingCommandEnds : Prop :=
  ∀ s : State, s.Inv → s.inbox = [] →
    ∃ k t, k ≤ 2 + (s.len.toNat + s.rem.toNat) / 12 ∧ Sys2Proof.core.run k s = .next t ∧ t.pend = .none

/-- R85: under the invariant every `wait` ends, with nothing pending and the rest of the inbox still to come. -/
def Obligations.EveryWaitEnds : Prop :=
  ∀ (s : State) (rest : List Event), s.Inv → s.inbox = .wait :: rest →
    ∃ k t, Sys2Proof.core.run k s = .next t ∧ t.pend = .none ∧ t.inbox = rest

/-! ## Frames -/

/-- No command writes key memory, LEN, SEED or KADDR (R33, R41, R16, R17, R18), nor the host's side of the order; OVR changes only where the command
is dropped. -/
def Obligations.CommandsLeaveMemoryAndOperandRegisters : Prop :=
  ∀ (i : Instr) (s t : State), exec i s = .next t →
    (∀ addr, t.kmem.read addr = s.kmem.read addr) ∧ t.kmem.size = s.kmem.size ∧ t.len = s.len ∧ t.seed = s.seed ∧
    t.kaddr = s.kaddr ∧ t.inbox = s.inbox ∧ t.answer = s.answer ∧ t.freeReads = s.freeReads ∧
    (t.ovr ≠ s.ovr → s.pend ≠ .none ∧ t = { s with ovr := true })

/-- The frame of NOP, MIX, FINAL and ROTL: REM, CUR, ACTIVE and the mark are unchanged; NMIX only MIX's step changes, NFIN only FINAL's, the words only
a step, and ROTL only the word it selects. -/
def Obligations.MixerCommandsFrame : Prop :=
  ∀ (i : Instr) (s t : State), exec i s = .next t →
    i = .nop ∨ i = .mix ∨ i = .final ∨ (∃ rs sh, i = .rotl rs sh) →
    t.rem = s.rem ∧ t.cur = s.cur ∧ t.active = s.active ∧ t.tainted = s.tainted ∧
    (t.nmix ≠ s.nmix → i = .mix ∧ s.pend = .mix) ∧ (t.nfin ≠ s.nfin → i = .final ∧ s.pend = .final) ∧
    (t.a ≠ s.a ∨ t.b ≠ s.b ∨ t.c ≠ s.c → i = .mix ∧ s.pend = .mix ∨ i = .final ∧ s.pend = .final ∨
      ∃ rs sh x, i = .rotl rs sh ∧ s.pend = .rotl x sh) ∧
    (∀ rs sh, i = .rotl rs sh → (rs ≠ 0 → t.a = s.a) ∧ (rs ≠ 1 → t.b = s.b) ∧ (rs ≠ 2 → t.c = s.c)) ∧
    (t.done ≠ s.done → t.done = false ∧ s.pend = .none ∧ i ≠ .nop) ∧
    (t.err ≠ s.err ∨ t.ecode ≠ s.ecode → s.pend = .none ∧ s.err = false ∧ i ≠ .nop)

/-- The frame of INIT, BLOCK, TAIL and HASH: acceptance changes none of the words, progress registers, counters and ACTIVE; INIT's step leaves DONE;
BLOCK leaves NFIN and ACTIVE, TAIL leaves NMIX; a step leaves ERR, ECODE and OVR. The mark of U2 (log 4) changes only at a step that reads key bytes, and
is then set exactly when it was set before or one of the bytes read holds no value. -/
def Obligations.HashCommandsFrame : Prop :=
  ∀ (i : Instr) (s t : State), exec i s = .next t → i = .init ∨ i = .block ∨ i = .tail ∨ i = .hash →
    (s.pend = .none → t.a = s.a ∧ t.b = s.b ∧ t.c = s.c ∧ t.rem = s.rem ∧ t.cur = s.cur ∧ t.nmix = s.nmix ∧ t.nfin = s.nfin ∧
      t.active = s.active ∧ t.tainted = s.tainted ∧ (t.done ≠ s.done → t.done = false ∧ i ≠ .tail)) ∧
    (s.pend ≠ .none → t.err = s.err ∧ t.ecode = s.ecode) ∧
    (i = .init → s.pend = .init → t.done = s.done ∧ t.ovr = s.ovr ∧ t.tainted = s.tainted) ∧
    (i = .block → s.pend = .block → t.nfin = s.nfin ∧ t.active = s.active ∧ t.done = s.done ∧ t.ovr = s.ovr) ∧
    (i = .tail → s.pend = .tail → t.nmix = s.nmix ∧ t.ovr = s.ovr) ∧
    (i = .hash → s.pend = .hashInit ∨ s.pend = .hashBody → t.ovr = s.ovr ∧ (t.done ≠ s.done → t.pend = .none ∧ t.done = true)) ∧
    (i = .hash → s.pend = .hashInit → t.tainted = s.tainted) ∧
    (i = .block ∧ s.pend = .block ∨ i = .hash ∧ s.pend = .hashBody ∧ 12 < s.rem.toNat →
      (t.tainted = true ↔ s.tainted = true ∨ ∃ j, j < 12 ∧ s.kmem.read (s.cur.toNat + j) = none)) ∧
    (i = .tail ∧ s.pend = .tail ∨ i = .hash ∧ s.pend = .hashBody ∧ s.rem.toNat ≤ 12 →
      (t.tainted = true ↔ s.tainted = true ∨ ∃ j, j < s.rem.toNat ∧ s.kmem.read (s.cur.toNat + j) = none)) ∧
    (t.tainted ≠ s.tainted → (i = .block ∧ s.pend = .block) ∨ (i = .tail ∧ s.pend = .tail) ∨ (i = .hash ∧ s.pend = .hashBody))

/-! ## Rules over all steps -/

/-- R33, R41, R42, R79: only a host's key-memory write with nothing pending, to an address in KMEM, changes a byte of key memory; and while a command is
pending no step but a reset changes LEN, SEED or KADDR, and none changes the key memory. -/
def Obligations.OnlyIdleKeyWritesChangeKeyMemory : Prop :=
  ∀ s t : State, s.kmem.wf = true → step s = .next t →
    (∀ x, t.kmem.read x ≠ s.kmem.read x →
      ∃ addr v rest, s.inbox = .keyWrite addr v :: rest ∧ s.pend = .none ∧ addr.toNat = x ∧ x < s.kmem.size) ∧
    t.kmem.size = s.kmem.size ∧
    (s.pend ≠ .none → t.kmem = s.kmem ∧
      ((∀ rest, s.inbox ≠ .reset :: rest) → t.len = s.len ∧ t.seed = s.seed ∧ t.kaddr = s.kaddr))

/-- R24: DONE is set to 1 only by a TAIL step, of TAIL or of HASH; it is set to 0 only at acceptance of a command other than TAIL and NOP, by a host
write of A, B or C, by a STATUS write with bit 1, or by reset. -/
def Obligations.DoneIsSetOnlyByTheTailStep : Prop :=
  ∀ s t : State, step s = .next t →
    (s.done = false → t.done = true →
      s.engineNext = true ∧ (s.pend = .tail ∨ s.pend = .hashBody ∧ s.rem.toNat ≤ 12) ∧ t.pend = .none) ∧
    (s.done = true → t.done = false →
      (∃ rest, s.inbox = .reset :: rest) ∨
      (∃ v rest, s.inbox = .regWrite 1 v :: rest ∧ v.getLsbD 1 = true) ∨
      (∃ idx v rest, s.inbox = .regWrite idx v :: rest ∧ s.pend = .none ∧ (idx = 5 ∨ idx = 6 ∨ idx = 7)) ∨
      (∃ w rest i, s.inbox = .regWrite 0 w :: rest ∧ s.pend = .none ∧ decode w = .command i ∧ i ≠ .tail ∧ i ≠ .nop ∧
        t.pend ≠ .none))

/-- R23: an INIT step, of INIT or of HASH, sets ACTIVE, and only it does; a TAIL step, of TAIL or of HASH, and reset clear it, and only they do. -/
def Obligations.ActiveFollowsTheSession : Prop :=
  ∀ s t : State, step s = .next t →
    (s.active = false → t.active = true → s.engineNext = true ∧ (s.pend = .init ∨ s.pend = .hashInit)) ∧
    (s.active = true → t.active = false →
      (∃ rest, s.inbox = .reset :: rest) ∨
      s.engineNext = true ∧ (s.pend = .tail ∨ s.pend = .hashBody ∧ s.rem.toNat ≤ 12)) ∧
    (s.engineNext = true → s.pend = .init ∨ s.pend = .hashInit → t.active = true) ∧
    (s.engineNext = true → s.pend = .tail ∨ s.pend = .hashBody ∧ s.rem.toNat ≤ 12 → t.active = false) ∧
    (∀ rest, s.inbox = .reset :: rest → t.active = false)

/-- R26: only reset takes a word's value away, and only an INIT step or a host write of that word gives one to a word that has none. -/
def Obligations.ValidBitsFollowTheWords : Prop :=
  ∀ s t : State, step s = .next t →
    (s.av = true → t.av = false → ∃ rest, s.inbox = .reset :: rest) ∧
    (s.bv = true → t.bv = false → ∃ rest, s.inbox = .reset :: rest) ∧
    (s.cv = true → t.cv = false → ∃ rest, s.inbox = .reset :: rest) ∧
    (s.av = false → t.av = true → s.engineNext = true ∧ (s.pend = .init ∨ s.pend = .hashInit) ∨
      ∃ v rest, s.inbox = .regWrite 5 v :: rest ∧ s.pend = .none) ∧
    (s.bv = false → t.bv = true → s.engineNext = true ∧ (s.pend = .init ∨ s.pend = .hashInit) ∨
      ∃ v rest, s.inbox = .regWrite 6 v :: rest ∧ s.pend = .none) ∧
    (s.cv = false → t.cv = true → s.engineNext = true ∧ (s.pend = .init ∨ s.pend = .hashInit) ∨
      ∃ v rest, s.inbox = .regWrite 7 v :: rest ∧ s.pend = .none)

/-- R21: NMIX goes up by one, modulo 2^32, exactly at a step of MIX or BLOCK (HASH's too), NFIN at a step of FINAL or of a non-empty TAIL (HASH's
too); both go to 0 at an INIT step and at reset; no other step changes them. -/
def Obligations.CountersCountRounds : Prop :=
  ∀ s t : State, step s = .next t →
    (s.engineNext = true → s.pend = .mix ∨ s.pend = .block ∨ s.pend = .hashBody ∧ 12 < s.rem.toNat →
      t.nmix = s.nmix + 1 ∧ t.nfin = s.nfin) ∧
    (s.engineNext = true → s.pend = .final ∨ (s.pend = .tail ∨ s.pend = .hashBody ∧ s.rem.toNat ≤ 12) ∧ 1 ≤ s.rem.toNat →
      t.nmix = s.nmix ∧ t.nfin = s.nfin + 1) ∧
    (s.engineNext = true ∧ (s.pend = .init ∨ s.pend = .hashInit) ∨ (∃ rest, s.inbox = .reset :: rest) → t.nmix = 0 ∧ t.nfin = 0) ∧
    (t.nmix ≠ s.nmix →
      (s.engineNext = true ∧ (s.pend = .mix ∨ s.pend = .block ∨ s.pend = .hashBody ∧ 12 < s.rem.toNat)) ∨
      (s.engineNext = true ∧ (s.pend = .init ∨ s.pend = .hashInit)) ∨ ∃ rest, s.inbox = .reset :: rest) ∧
    (t.nfin ≠ s.nfin →
      (s.engineNext = true ∧ (s.pend = .final ∨ (s.pend = .tail ∨ s.pend = .hashBody ∧ s.rem.toNat ≤ 12) ∧ 1 ≤ s.rem.toNat)) ∨
      (s.engineNext = true ∧ (s.pend = .init ∨ s.pend = .hashInit)) ∨ ∃ rest, s.inbox = .reset :: rest)

/-- R20: an INIT step, of INIT or of HASH, sets CUR and REM to KADDR and LEN, and every other step after which the session is still open keeps CUR + REM
as an integer, whatever event it takes. A BLOCK step does not wrap CUR; a TAIL step moves CUR past the last byte modulo 2^32, and wraps it only where
KEYMEM_SIZE = 2^32 and the key ends at its last byte. -/
def Obligations.CursorStaysOnTheKey : Prop :=
  ∀ s t : State, s.Inv → step s = .next t →
    (s.engineNext = true → s.pend = .init ∨ s.pend = .hashInit → t.active = true ∧ t.cur = s.kaddr ∧ t.rem = s.len) ∧
    (s.active = true → t.active = true → ¬ (s.engineNext = true ∧ (s.pend = .init ∨ s.pend = .hashInit)) →
      t.cur.toNat + t.rem.toNat = s.cur.toNat + s.rem.toNat) ∧
    (s.engineNext = true → s.pend = .block ∨ s.pend = .hashBody ∧ 12 < s.rem.toNat →
      t.active = true ∧ t.cur.toNat = s.cur.toNat + 12 ∧ t.rem.toNat + 12 = s.rem.toNat) ∧
    (s.engineNext = true → s.pend = .tail ∨ s.pend = .hashBody ∧ s.rem.toNat ≤ 12 →
      t.cur = s.cur + s.rem ∧ t.rem = 0 ∧
      (t.cur.toNat ≠ s.cur.toNat + s.rem.toNat → s.kmem.size = 2 ^ 32 ∧ s.cur.toNat + s.rem.toNat = 2 ^ 32 ∧ t.cur = 0))

/-- R76, R78, R42: while a command is pending, no transaction of the host (a read, a write to any register, a key-memory write, a `wait`) changes the
words, the operand and progress registers, the counters, ACTIVE, PEND or the key memory. -/
def Obligations.HostCannotDisturbARunningCommand : Prop :=
  ∀ (s t : State) (e : Event) (rest : List Event), s.pend ≠ .none → s.inbox = e :: rest → e ≠ .engine → e ≠ .reset →
    step s = .next t →
    t.a = s.a ∧ t.b = s.b ∧ t.c = s.c ∧ t.len = s.len ∧ t.seed = s.seed ∧ t.kaddr = s.kaddr ∧ t.rem = s.rem ∧ t.cur = s.cur ∧
    t.nmix = s.nmix ∧ t.nfin = s.nfin ∧ t.active = s.active ∧ t.pend = s.pend ∧ t.kmem = s.kmem ∧ t.tainted = s.tainted

/-- R25: BUSY is set only by the acceptance of a command other than NOP, and cleared only by an engine step that ends the command, for HASH its TAIL
step, or by reset. -/
def Obligations.BusyFollowsThePendingCommand : Prop :=
  ∀ s t : State, step s = .next t →
    (s.busy = false → t.busy = true →
      ∃ w rest i, s.inbox = .regWrite 0 w :: rest ∧ decode w = .command i ∧ i ≠ .nop ∧ exec i { s with inbox := rest } = .next t) ∧
    (s.busy = true → t.busy = false →
      (∃ rest, s.inbox = .reset :: rest) ∨
      s.engineNext = true ∧ s.pend ≠ .hashInit ∧ (s.pend = .hashBody → s.rem.toNat ≤ 12)) ∧
    (s.busy = true → s.engineNext = true → s.pend ≠ .hashInit → (s.pend = .hashBody → s.rem.toNat ≤ 12) → t.busy = false)

/-- R94, R95: ERR is set only by a rejected CMD write made while BUSY = 0, together with its code, and is cleared only, together with ECODE, by a
STATUS write with bit 2 or by reset; ECODE changes at no other time, whatever ERR is. -/
def Obligations.ErrorStaysUntilItIsCleared : Prop :=
  ∀ s t : State, step s = .next t →
    (s.err = false → t.err = true → (∃ w rest, s.inbox = .regWrite 0 w :: rest) ∧ s.pend = .none ∧ t.pend = .none ∧ t.ecode ≠ .none) ∧
    (s.err = true → t.err = false →
      t.ecode = .none ∧ ((∃ rest, s.inbox = .reset :: rest) ∨ ∃ v rest, s.inbox = .regWrite 1 v :: rest ∧ v.getLsbD 2 = true)) ∧
    (s.err = true → t.err = true → t.ecode = s.ecode) ∧
    (t.ecode ≠ s.ecode →
      (s.err = false ∧ t.err = true ∧ s.pend = .none ∧ t.pend = .none ∧ ∃ w rest, s.inbox = .regWrite 0 w :: rest) ∨
      (t.ecode = .none ∧ ((∃ rest, s.inbox = .reset :: rest) ∨ ∃ v rest, s.inbox = .regWrite 1 v :: rest ∧ v.getLsbD 2 = true)))

/-- R96: a host write dropped while BUSY = 1 sets OVR and leaves ERR and ECODE, and nothing else sets OVR; a STATUS write with bit 3 clears it, and
nothing else but reset does. -/
def Obligations.OvrRecordsDroppedWrites : Prop :=
  ∀ s t : State, step s = .next t →
    (s.ovr = false → t.ovr = true →
      s.pend ≠ .none ∧ t.err = s.err ∧ t.ecode = s.ecode ∧
      ((∃ idx v rest, s.inbox = .regWrite idx v :: rest ∧ idx ≠ 1) ∨ ∃ addr v rest, s.inbox = .keyWrite addr v :: rest)) ∧
    (s.ovr = true → t.ovr = false →
      (∃ rest, s.inbox = .reset :: rest) ∨ ∃ v rest, s.inbox = .regWrite 1 v :: rest ∧ v.getLsbD 3 = true) ∧
    (s.pend ≠ .none →
      ((∃ idx v rest, s.inbox = .regWrite idx v :: rest ∧ idx ≠ 1) ∨ ∃ addr v rest, s.inbox = .keyWrite addr v :: rest) →
      t.ovr = true ∧ t.err = s.err ∧ t.ecode = s.ecode) ∧
    (∀ v rest, s.inbox = .regWrite 1 v :: rest → v.getLsbD 3 = true → t.ovr = false)

/-- R16, R17, R18: no command writes LEN, SEED or KADDR; each changes only at a host write of its own index with nothing pending, or at reset. -/
def Obligations.OperandRegistersAreTheHosts : Prop :=
  ∀ s t : State, step s = .next t → (∀ rest, s.inbox ≠ .reset :: rest) →
    (t.len ≠ s.len → ∃ rest, s.inbox = .regWrite 2 t.len :: rest ∧ s.pend = .none) ∧
    (t.seed ≠ s.seed → ∃ rest, s.inbox = .regWrite 3 t.seed :: rest ∧ s.pend = .none) ∧
    (t.kaddr ≠ s.kaddr → ∃ rest, s.inbox = .regWrite 4 t.kaddr :: rest ∧ s.pend = .none)
end

