-- ==== Sys2Proof/Laws/State.lean ====
section
/-!
SUPPORT. What each named update of the state does to each field, so that no later proof unfolds a record update: for an update `f`, the field it
writes has the value said, and every other field is unchanged.
-/
namespace Sys2Proof.Machine

@[simp] theorem State.start_a (s : State) (p : Pend) : (s.start p).a = s.a := rfl
@[simp] theorem State.start_b (s : State) (p : Pend) : (s.start p).b = s.b := rfl
@[simp] theorem State.start_c (s : State) (p : Pend) : (s.start p).c = s.c := rfl
@[simp] theorem State.start_len (s : State) (p : Pend) : (s.start p).len = s.len := rfl
@[simp] theorem State.start_seed (s : State) (p : Pend) : (s.start p).seed = s.seed := rfl
@[simp] theorem State.start_kaddr (s : State) (p : Pend) : (s.start p).kaddr = s.kaddr := rfl
@[simp] theorem State.start_rem (s : State) (p : Pend) : (s.start p).rem = s.rem := rfl
@[simp] theorem State.start_cur (s : State) (p : Pend) : (s.start p).cur = s.cur := rfl
@[simp] theorem State.start_nmix (s : State) (p : Pend) : (s.start p).nmix = s.nmix := rfl
@[simp] theorem State.start_nfin (s : State) (p : Pend) : (s.start p).nfin = s.nfin := rfl
@[simp] theorem State.start_done (s : State) (p : Pend) : (s.start p).done = false := rfl
@[simp] theorem State.start_err (s : State) (p : Pend) : (s.start p).err = s.err := rfl
@[simp] theorem State.start_ovr (s : State) (p : Pend) : (s.start p).ovr = s.ovr := rfl
@[simp] theorem State.start_ecode (s : State) (p : Pend) : (s.start p).ecode = s.ecode := rfl
@[simp] theorem State.start_active (s : State) (p : Pend) : (s.start p).active = s.active := rfl
@[simp] theorem State.start_pend (s : State) (p : Pend) : (s.start p).pend = p := rfl
@[simp] theorem State.start_kmem (s : State) (p : Pend) : (s.start p).kmem = s.kmem := rfl
@[simp] theorem State.start_inbox (s : State) (p : Pend) : (s.start p).inbox = s.inbox := rfl
@[simp] theorem State.start_answer (s : State) (p : Pend) : (s.start p).answer = s.answer := rfl
@[simp] theorem State.start_freeReads (s : State) (p : Pend) : (s.start p).freeReads = s.freeReads := rfl
@[simp] theorem State.start_tainted (s : State) (p : Pend) : (s.start p).tainted = s.tainted := rfl

@[simp] theorem State.finish_a (s : State) : (s.finish).a = s.a := rfl
@[simp] theorem State.finish_b (s : State) : (s.finish).b = s.b := rfl
@[simp] theorem State.finish_c (s : State) : (s.finish).c = s.c := rfl
@[simp] theorem State.finish_len (s : State) : (s.finish).len = s.len := rfl
@[simp] theorem State.finish_seed (s : State) : (s.finish).seed = s.seed := rfl
@[simp] theorem State.finish_kaddr (s : State) : (s.finish).kaddr = s.kaddr := rfl
@[simp] theorem State.finish_rem (s : State) : (s.finish).rem = s.rem := rfl
@[simp] theorem State.finish_cur (s : State) : (s.finish).cur = s.cur := rfl
@[simp] theorem State.finish_nmix (s : State) : (s.finish).nmix = s.nmix := rfl
@[simp] theorem State.finish_nfin (s : State) : (s.finish).nfin = s.nfin := rfl
@[simp] theorem State.finish_done (s : State) : (s.finish).done = s.done := rfl
@[simp] theorem State.finish_err (s : State) : (s.finish).err = s.err := rfl
@[simp] theorem State.finish_ovr (s : State) : (s.finish).ovr = s.ovr := rfl
@[simp] theorem State.finish_ecode (s : State) : (s.finish).ecode = s.ecode := rfl
@[simp] theorem State.finish_active (s : State) : (s.finish).active = s.active := rfl
@[simp] theorem State.finish_pend (s : State) : (s.finish).pend = .none := rfl
@[simp] theorem State.finish_kmem (s : State) : (s.finish).kmem = s.kmem := rfl
@[simp] theorem State.finish_inbox (s : State) : (s.finish).inbox = s.inbox := rfl
@[simp] theorem State.finish_answer (s : State) : (s.finish).answer = s.answer := rfl
@[simp] theorem State.finish_freeReads (s : State) : (s.finish).freeReads = s.freeReads := rfl
@[simp] theorem State.finish_tainted (s : State) : (s.finish).tainted = s.tainted := rfl

@[simp] theorem State.drop_a (s : State) : (s.drop).a = s.a := rfl
@[simp] theorem State.drop_b (s : State) : (s.drop).b = s.b := rfl
@[simp] theorem State.drop_c (s : State) : (s.drop).c = s.c := rfl
@[simp] theorem State.drop_len (s : State) : (s.drop).len = s.len := rfl
@[simp] theorem State.drop_seed (s : State) : (s.drop).seed = s.seed := rfl
@[simp] theorem State.drop_kaddr (s : State) : (s.drop).kaddr = s.kaddr := rfl
@[simp] theorem State.drop_rem (s : State) : (s.drop).rem = s.rem := rfl
@[simp] theorem State.drop_cur (s : State) : (s.drop).cur = s.cur := rfl
@[simp] theorem State.drop_nmix (s : State) : (s.drop).nmix = s.nmix := rfl
@[simp] theorem State.drop_nfin (s : State) : (s.drop).nfin = s.nfin := rfl
@[simp] theorem State.drop_done (s : State) : (s.drop).done = s.done := rfl
@[simp] theorem State.drop_err (s : State) : (s.drop).err = s.err := rfl
@[simp] theorem State.drop_ovr (s : State) : (s.drop).ovr = true := rfl
@[simp] theorem State.drop_ecode (s : State) : (s.drop).ecode = s.ecode := rfl
@[simp] theorem State.drop_active (s : State) : (s.drop).active = s.active := rfl
@[simp] theorem State.drop_pend (s : State) : (s.drop).pend = s.pend := rfl
@[simp] theorem State.drop_kmem (s : State) : (s.drop).kmem = s.kmem := rfl
@[simp] theorem State.drop_inbox (s : State) : (s.drop).inbox = s.inbox := rfl
@[simp] theorem State.drop_answer (s : State) : (s.drop).answer = s.answer := rfl
@[simp] theorem State.drop_freeReads (s : State) : (s.drop).freeReads = s.freeReads := rfl
@[simp] theorem State.drop_tainted (s : State) : (s.drop).tainted = s.tainted := rfl

@[simp] theorem State.setWords_a (s : State) (t : Words) : (s.setWords t).a = some t.a := rfl
@[simp] theorem State.setWords_b (s : State) (t : Words) : (s.setWords t).b = some t.b := rfl
@[simp] theorem State.setWords_c (s : State) (t : Words) : (s.setWords t).c = some t.c := rfl
@[simp] theorem State.setWords_len (s : State) (t : Words) : (s.setWords t).len = s.len := rfl
@[simp] theorem State.setWords_seed (s : State) (t : Words) : (s.setWords t).seed = s.seed := rfl
@[simp] theorem State.setWords_kaddr (s : State) (t : Words) : (s.setWords t).kaddr = s.kaddr := rfl
@[simp] theorem State.setWords_rem (s : State) (t : Words) : (s.setWords t).rem = s.rem := rfl
@[simp] theorem State.setWords_cur (s : State) (t : Words) : (s.setWords t).cur = s.cur := rfl
@[simp] theorem State.setWords_nmix (s : State) (t : Words) : (s.setWords t).nmix = s.nmix := rfl
@[simp] theorem State.setWords_nfin (s : State) (t : Words) : (s.setWords t).nfin = s.nfin := rfl
@[simp] theorem State.setWords_done (s : State) (t : Words) : (s.setWords t).done = s.done := rfl
@[simp] theorem State.setWords_err (s : State) (t : Words) : (s.setWords t).err = s.err := rfl
@[simp] theorem State.setWords_ovr (s : State) (t : Words) : (s.setWords t).ovr = s.ovr := rfl
@[simp] theorem State.setWords_ecode (s : State) (t : Words) : (s.setWords t).ecode = s.ecode := rfl
@[simp] theorem State.setWords_active (s : State) (t : Words) : (s.setWords t).active = s.active := rfl
@[simp] theorem State.setWords_pend (s : State) (t : Words) : (s.setWords t).pend = s.pend := rfl
@[simp] theorem State.setWords_kmem (s : State) (t : Words) : (s.setWords t).kmem = s.kmem := rfl
@[simp] theorem State.setWords_inbox (s : State) (t : Words) : (s.setWords t).inbox = s.inbox := rfl
@[simp] theorem State.setWords_answer (s : State) (t : Words) : (s.setWords t).answer = s.answer := rfl
@[simp] theorem State.setWords_freeReads (s : State) (t : Words) : (s.setWords t).freeReads = s.freeReads := rfl
@[simp] theorem State.setWords_tainted (s : State) (t : Words) : (s.setWords t).tainted = s.tainted := rfl

@[simp] theorem clearStatus_a (v : Word) (s : State) : (clearStatus v s).a = s.a := rfl
@[simp] theorem clearStatus_b (v : Word) (s : State) : (clearStatus v s).b = s.b := rfl
@[simp] theorem clearStatus_c (v : Word) (s : State) : (clearStatus v s).c = s.c := rfl
@[simp] theorem clearStatus_len (v : Word) (s : State) : (clearStatus v s).len = s.len := rfl
@[simp] theorem clearStatus_seed (v : Word) (s : State) : (clearStatus v s).seed = s.seed := rfl
@[simp] theorem clearStatus_kaddr (v : Word) (s : State) : (clearStatus v s).kaddr = s.kaddr := rfl
@[simp] theorem clearStatus_rem (v : Word) (s : State) : (clearStatus v s).rem = s.rem := rfl
@[simp] theorem clearStatus_cur (v : Word) (s : State) : (clearStatus v s).cur = s.cur := rfl
@[simp] theorem clearStatus_nmix (v : Word) (s : State) : (clearStatus v s).nmix = s.nmix := rfl
@[simp] theorem clearStatus_nfin (v : Word) (s : State) : (clearStatus v s).nfin = s.nfin := rfl
@[simp] theorem clearStatus_done (v : Word) (s : State) : (clearStatus v s).done = (s.done && !v.getLsbD 1) := rfl
@[simp] theorem clearStatus_err (v : Word) (s : State) : (clearStatus v s).err = (s.err && !v.getLsbD 2) := rfl
@[simp] theorem clearStatus_ovr (v : Word) (s : State) : (clearStatus v s).ovr = (s.ovr && !v.getLsbD 3) := rfl
@[simp] theorem clearStatus_ecode (v : Word) (s : State) : (clearStatus v s).ecode = if v.getLsbD 2 then .none else s.ecode := rfl
@[simp] theorem clearStatus_active (v : Word) (s : State) : (clearStatus v s).active = s.active := rfl
@[simp] theorem clearStatus_pend (v : Word) (s : State) : (clearStatus v s).pend = s.pend := rfl
@[simp] theorem clearStatus_kmem (v : Word) (s : State) : (clearStatus v s).kmem = s.kmem := rfl
@[simp] theorem clearStatus_inbox (v : Word) (s : State) : (clearStatus v s).inbox = s.inbox := rfl
@[simp] theorem clearStatus_answer (v : Word) (s : State) : (clearStatus v s).answer = s.answer := rfl
@[simp] theorem clearStatus_freeReads (v : Word) (s : State) : (clearStatus v s).freeReads = s.freeReads := rfl
@[simp] theorem clearStatus_tainted (v : Word) (s : State) : (clearStatus v s).tainted = s.tainted := rfl

@[simp] theorem initBody_a (s : State) : (initBody s).a = some (iv s.len s.seed) := rfl
@[simp] theorem initBody_b (s : State) : (initBody s).b = some (iv s.len s.seed) := rfl
@[simp] theorem initBody_c (s : State) : (initBody s).c = some (iv s.len s.seed) := rfl
@[simp] theorem initBody_len (s : State) : (initBody s).len = s.len := rfl
@[simp] theorem initBody_seed (s : State) : (initBody s).seed = s.seed := rfl
@[simp] theorem initBody_kaddr (s : State) : (initBody s).kaddr = s.kaddr := rfl
@[simp] theorem initBody_rem (s : State) : (initBody s).rem = s.len := rfl
@[simp] theorem initBody_cur (s : State) : (initBody s).cur = s.kaddr := rfl
@[simp] theorem initBody_nmix (s : State) : (initBody s).nmix = 0 := rfl
@[simp] theorem initBody_nfin (s : State) : (initBody s).nfin = 0 := rfl
@[simp] theorem initBody_done (s : State) : (initBody s).done = s.done := rfl
@[simp] theorem initBody_err (s : State) : (initBody s).err = s.err := rfl
@[simp] theorem initBody_ovr (s : State) : (initBody s).ovr = s.ovr := rfl
@[simp] theorem initBody_ecode (s : State) : (initBody s).ecode = s.ecode := rfl
@[simp] theorem initBody_active (s : State) : (initBody s).active = true := rfl
@[simp] theorem initBody_pend (s : State) : (initBody s).pend = s.pend := rfl
@[simp] theorem initBody_kmem (s : State) : (initBody s).kmem = s.kmem := rfl
@[simp] theorem initBody_inbox (s : State) : (initBody s).inbox = s.inbox := rfl
@[simp] theorem initBody_answer (s : State) : (initBody s).answer = s.answer := rfl
@[simp] theorem initBody_freeReads (s : State) : (initBody s).freeReads = s.freeReads := rfl
@[simp] theorem initBody_tainted (s : State) : (initBody s).tainted = s.tainted := rfl

@[simp] theorem markBytes_a (n : Nat) (s : State) : (markBytes n s).a = s.a := rfl
@[simp] theorem markBytes_b (n : Nat) (s : State) : (markBytes n s).b = s.b := rfl
@[simp] theorem markBytes_c (n : Nat) (s : State) : (markBytes n s).c = s.c := rfl
@[simp] theorem markBytes_len (n : Nat) (s : State) : (markBytes n s).len = s.len := rfl
@[simp] theorem markBytes_seed (n : Nat) (s : State) : (markBytes n s).seed = s.seed := rfl
@[simp] theorem markBytes_kaddr (n : Nat) (s : State) : (markBytes n s).kaddr = s.kaddr := rfl
@[simp] theorem markBytes_rem (n : Nat) (s : State) : (markBytes n s).rem = s.rem := rfl
@[simp] theorem markBytes_cur (n : Nat) (s : State) : (markBytes n s).cur = s.cur := rfl
@[simp] theorem markBytes_nmix (n : Nat) (s : State) : (markBytes n s).nmix = s.nmix := rfl
@[simp] theorem markBytes_nfin (n : Nat) (s : State) : (markBytes n s).nfin = s.nfin := rfl
@[simp] theorem markBytes_done (n : Nat) (s : State) : (markBytes n s).done = s.done := rfl
@[simp] theorem markBytes_err (n : Nat) (s : State) : (markBytes n s).err = s.err := rfl
@[simp] theorem markBytes_ovr (n : Nat) (s : State) : (markBytes n s).ovr = s.ovr := rfl
@[simp] theorem markBytes_ecode (n : Nat) (s : State) : (markBytes n s).ecode = s.ecode := rfl
@[simp] theorem markBytes_active (n : Nat) (s : State) : (markBytes n s).active = s.active := rfl
@[simp] theorem markBytes_pend (n : Nat) (s : State) : (markBytes n s).pend = s.pend := rfl
@[simp] theorem markBytes_kmem (n : Nat) (s : State) : (markBytes n s).kmem = s.kmem := rfl
@[simp] theorem markBytes_inbox (n : Nat) (s : State) : (markBytes n s).inbox = s.inbox := rfl
@[simp] theorem markBytes_answer (n : Nat) (s : State) : (markBytes n s).answer = s.answer := rfl
@[simp] theorem markBytes_freeReads (n : Nat) (s : State) : (markBytes n s).freeReads = s.freeReads := rfl
@[simp] theorem markBytes_tainted (n : Nat) (s : State) : (markBytes n s).tainted = (s.tainted || !s.kmem.written s.cur.toNat n) := rfl

@[simp] theorem absorbBlock_a (t : Words) (s : State) : (absorbBlock t s).a = some (mix (addBlock s.kmem.byte s.cur.toNat t)).a := rfl
@[simp] theorem absorbBlock_b (t : Words) (s : State) : (absorbBlock t s).b = some (mix (addBlock s.kmem.byte s.cur.toNat t)).b := rfl
@[simp] theorem absorbBlock_c (t : Words) (s : State) : (absorbBlock t s).c = some (mix (addBlock s.kmem.byte s.cur.toNat t)).c := rfl
@[simp] theorem absorbBlock_len (t : Words) (s : State) : (absorbBlock t s).len = s.len := rfl
@[simp] theorem absorbBlock_seed (t : Words) (s : State) : (absorbBlock t s).seed = s.seed := rfl
@[simp] theorem absorbBlock_kaddr (t : Words) (s : State) : (absorbBlock t s).kaddr = s.kaddr := rfl
@[simp] theorem absorbBlock_rem (t : Words) (s : State) : (absorbBlock t s).rem = s.rem - 12 := rfl
@[simp] theorem absorbBlock_cur (t : Words) (s : State) : (absorbBlock t s).cur = s.cur + 12 := rfl
@[simp] theorem absorbBlock_nmix (t : Words) (s : State) : (absorbBlock t s).nmix = s.nmix + 1 := rfl
@[simp] theorem absorbBlock_nfin (t : Words) (s : State) : (absorbBlock t s).nfin = s.nfin := rfl
@[simp] theorem absorbBlock_done (t : Words) (s : State) : (absorbBlock t s).done = s.done := rfl
@[simp] theorem absorbBlock_err (t : Words) (s : State) : (absorbBlock t s).err = s.err := rfl
@[simp] theorem absorbBlock_ovr (t : Words) (s : State) : (absorbBlock t s).ovr = s.ovr := rfl
@[simp] theorem absorbBlock_ecode (t : Words) (s : State) : (absorbBlock t s).ecode = s.ecode := rfl
@[simp] theorem absorbBlock_active (t : Words) (s : State) : (absorbBlock t s).active = s.active := rfl
@[simp] theorem absorbBlock_pend (t : Words) (s : State) : (absorbBlock t s).pend = s.pend := rfl
@[simp] theorem absorbBlock_kmem (t : Words) (s : State) : (absorbBlock t s).kmem = s.kmem := rfl
@[simp] theorem absorbBlock_inbox (t : Words) (s : State) : (absorbBlock t s).inbox = s.inbox := rfl
@[simp] theorem absorbBlock_answer (t : Words) (s : State) : (absorbBlock t s).answer = s.answer := rfl
@[simp] theorem absorbBlock_freeReads (t : Words) (s : State) : (absorbBlock t s).freeReads = s.freeReads := rfl
@[simp] theorem absorbBlock_tainted (t : Words) (s : State) : (absorbBlock t s).tainted = (s.tainted || !s.kmem.written s.cur.toNat 12) := rfl

@[simp] theorem absorbTail_a (t : Words) (s : State) : (absorbTail t s).a = some (tailWords s.kmem.byte s.cur.toNat s.rem.toNat t).a := rfl
@[simp] theorem absorbTail_b (t : Words) (s : State) : (absorbTail t s).b = some (tailWords s.kmem.byte s.cur.toNat s.rem.toNat t).b := rfl
@[simp] theorem absorbTail_c (t : Words) (s : State) : (absorbTail t s).c = some (tailWords s.kmem.byte s.cur.toNat s.rem.toNat t).c := rfl
@[simp] theorem absorbTail_len (t : Words) (s : State) : (absorbTail t s).len = s.len := rfl
@[simp] theorem absorbTail_seed (t : Words) (s : State) : (absorbTail t s).seed = s.seed := rfl
@[simp] theorem absorbTail_kaddr (t : Words) (s : State) : (absorbTail t s).kaddr = s.kaddr := rfl
@[simp] theorem absorbTail_rem (t : Words) (s : State) : (absorbTail t s).rem = 0 := rfl
@[simp] theorem absorbTail_cur (t : Words) (s : State) : (absorbTail t s).cur = s.cur + s.rem := rfl
@[simp] theorem absorbTail_nmix (t : Words) (s : State) : (absorbTail t s).nmix = s.nmix := rfl
@[simp] theorem absorbTail_nfin (t : Words) (s : State) : (absorbTail t s).nfin = (if 1 ≤ s.rem.toNat then s.nfin + 1 else s.nfin) := rfl
@[simp] theorem absorbTail_done (t : Words) (s : State) : (absorbTail t s).done = true := rfl
@[simp] theorem absorbTail_err (t : Words) (s : State) : (absorbTail t s).err = s.err := rfl
@[simp] theorem absorbTail_ovr (t : Words) (s : State) : (absorbTail t s).ovr = s.ovr := rfl
@[simp] theorem absorbTail_ecode (t : Words) (s : State) : (absorbTail t s).ecode = s.ecode := rfl
@[simp] theorem absorbTail_active (t : Words) (s : State) : (absorbTail t s).active = false := rfl
@[simp] theorem absorbTail_pend (t : Words) (s : State) : (absorbTail t s).pend = s.pend := rfl
@[simp] theorem absorbTail_kmem (t : Words) (s : State) : (absorbTail t s).kmem = s.kmem := rfl
@[simp] theorem absorbTail_inbox (t : Words) (s : State) : (absorbTail t s).inbox = s.inbox := rfl
@[simp] theorem absorbTail_answer (t : Words) (s : State) : (absorbTail t s).answer = s.answer := rfl
@[simp] theorem absorbTail_freeReads (t : Words) (s : State) : (absorbTail t s).freeReads = s.freeReads := rfl
@[simp] theorem absorbTail_tainted (t : Words) (s : State) : (absorbTail t s).tainted = (s.tainted || !s.kmem.written s.cur.toNat s.rem.toNat) := rfl

@[simp] theorem resetInput_a (s : State) : (resetInput s).a = none := rfl
@[simp] theorem resetInput_b (s : State) : (resetInput s).b = none := rfl
@[simp] theorem resetInput_c (s : State) : (resetInput s).c = none := rfl
@[simp] theorem resetInput_len (s : State) : (resetInput s).len = 0 := rfl
@[simp] theorem resetInput_seed (s : State) : (resetInput s).seed = 0 := rfl
@[simp] theorem resetInput_kaddr (s : State) : (resetInput s).kaddr = 0 := rfl
@[simp] theorem resetInput_rem (s : State) : (resetInput s).rem = 0 := rfl
@[simp] theorem resetInput_cur (s : State) : (resetInput s).cur = 0 := rfl
@[simp] theorem resetInput_nmix (s : State) : (resetInput s).nmix = 0 := rfl
@[simp] theorem resetInput_nfin (s : State) : (resetInput s).nfin = 0 := rfl
@[simp] theorem resetInput_done (s : State) : (resetInput s).done = false := rfl
@[simp] theorem resetInput_err (s : State) : (resetInput s).err = false := rfl
@[simp] theorem resetInput_ovr (s : State) : (resetInput s).ovr = false := rfl
@[simp] theorem resetInput_ecode (s : State) : (resetInput s).ecode = .none := rfl
@[simp] theorem resetInput_active (s : State) : (resetInput s).active = false := rfl
@[simp] theorem resetInput_pend (s : State) : (resetInput s).pend = .none := rfl
@[simp] theorem resetInput_kmem (s : State) : (resetInput s).kmem = s.kmem := rfl
@[simp] theorem resetInput_inbox (s : State) : (resetInput s).inbox = s.inbox := rfl
@[simp] theorem resetInput_answer (s : State) : (resetInput s).answer = s.answer := rfl
@[simp] theorem resetInput_freeReads (s : State) : (resetInput s).freeReads = s.freeReads := rfl
@[simp] theorem resetInput_tainted (s : State) : (resetInput s).tainted = false := rfl

@[simp] theorem raiseError_a (code : ECode) (s : State) : (raiseError code s).a = s.a := by
  unfold raiseError; split <;> rfl
@[simp] theorem raiseError_b (code : ECode) (s : State) : (raiseError code s).b = s.b := by
  unfold raiseError; split <;> rfl
@[simp] theorem raiseError_c (code : ECode) (s : State) : (raiseError code s).c = s.c := by
  unfold raiseError; split <;> rfl
@[simp] theorem raiseError_len (code : ECode) (s : State) : (raiseError code s).len = s.len := by
  unfold raiseError; split <;> rfl
@[simp] theorem raiseError_seed (code : ECode) (s : State) : (raiseError code s).seed = s.seed := by
  unfold raiseError; split <;> rfl
@[simp] theorem raiseError_kaddr (code : ECode) (s : State) : (raiseError code s).kaddr = s.kaddr := by
  unfold raiseError; split <;> rfl
@[simp] theorem raiseError_rem (code : ECode) (s : State) : (raiseError code s).rem = s.rem := by
  unfold raiseError; split <;> rfl
@[simp] theorem raiseError_cur (code : ECode) (s : State) : (raiseError code s).cur = s.cur := by
  unfold raiseError; split <;> rfl
@[simp] theorem raiseError_nmix (code : ECode) (s : State) : (raiseError code s).nmix = s.nmix := by
  unfold raiseError; split <;> rfl
@[simp] theorem raiseError_nfin (code : ECode) (s : State) : (raiseError code s).nfin = s.nfin := by
  unfold raiseError; split <;> rfl
@[simp] theorem raiseError_done (code : ECode) (s : State) : (raiseError code s).done = s.done := by
  unfold raiseError; split <;> rfl
@[simp] theorem raiseError_ovr (code : ECode) (s : State) : (raiseError code s).ovr = s.ovr := by
  unfold raiseError; split <;> rfl
@[simp] theorem raiseError_active (code : ECode) (s : State) : (raiseError code s).active = s.active := by
  unfold raiseError; split <;> rfl
@[simp] theorem raiseError_pend (code : ECode) (s : State) : (raiseError code s).pend = s.pend := by
  unfold raiseError; split <;> rfl
@[simp] theorem raiseError_kmem (code : ECode) (s : State) : (raiseError code s).kmem = s.kmem := by
  unfold raiseError; split <;> rfl
@[simp] theorem raiseError_inbox (code : ECode) (s : State) : (raiseError code s).inbox = s.inbox := by
  unfold raiseError; split <;> rfl
@[simp] theorem raiseError_answer (code : ECode) (s : State) : (raiseError code s).answer = s.answer := by
  unfold raiseError; split <;> rfl
@[simp] theorem raiseError_freeReads (code : ECode) (s : State) : (raiseError code s).freeReads = s.freeReads := by
  unfold raiseError; split <;> rfl
@[simp] theorem raiseError_tainted (code : ECode) (s : State) : (raiseError code s).tainted = s.tainted := by
  unfold raiseError; split <;> rfl
@[simp] theorem raiseError_err (code : ECode) (s : State) : (raiseError code s).err = true := by
  unfold raiseError; split <;> simp_all
@[simp] theorem raiseError_ecode (code : ECode) (s : State) :
    (raiseError code s).ecode = if s.err then s.ecode else code := by
  unfold raiseError; split <;> simp_all

@[simp] theorem State.setWord_len (s : State) (x : WordSel) (v : Word) : (s.setWord x v).len = s.len := by
  cases x <;> rfl
@[simp] theorem State.setWord_seed (s : State) (x : WordSel) (v : Word) : (s.setWord x v).seed = s.seed := by
  cases x <;> rfl
@[simp] theorem State.setWord_kaddr (s : State) (x : WordSel) (v : Word) : (s.setWord x v).kaddr = s.kaddr := by
  cases x <;> rfl
@[simp] theorem State.setWord_rem (s : State) (x : WordSel) (v : Word) : (s.setWord x v).rem = s.rem := by
  cases x <;> rfl
@[simp] theorem State.setWord_cur (s : State) (x : WordSel) (v : Word) : (s.setWord x v).cur = s.cur := by
  cases x <;> rfl
@[simp] theorem State.setWord_nmix (s : State) (x : WordSel) (v : Word) : (s.setWord x v).nmix = s.nmix := by
  cases x <;> rfl
@[simp] theorem State.setWord_nfin (s : State) (x : WordSel) (v : Word) : (s.setWord x v).nfin = s.nfin := by
  cases x <;> rfl
@[simp] theorem State.setWord_done (s : State) (x : WordSel) (v : Word) : (s.setWord x v).done = s.done := by
  cases x <;> rfl
@[simp] theorem State.setWord_err (s : State) (x : WordSel) (v : Word) : (s.setWord x v).err = s.err := by
  cases x <;> rfl
@[simp] theorem State.setWord_ovr (s : State) (x : WordSel) (v : Word) : (s.setWord x v).ovr = s.ovr := by
  cases x <;> rfl
@[simp] theorem State.setWord_ecode (s : State) (x : WordSel) (v : Word) : (s.setWord x v).ecode = s.ecode := by
  cases x <;> rfl
@[simp] theorem State.setWord_active (s : State) (x : WordSel) (v : Word) : (s.setWord x v).active = s.active := by
  cases x <;> rfl
@[simp] theorem State.setWord_pend (s : State) (x : WordSel) (v : Word) : (s.setWord x v).pend = s.pend := by
  cases x <;> rfl
@[simp] theorem State.setWord_kmem (s : State) (x : WordSel) (v : Word) : (s.setWord x v).kmem = s.kmem := by
  cases x <;> rfl
@[simp] theorem State.setWord_inbox (s : State) (x : WordSel) (v : Word) : (s.setWord x v).inbox = s.inbox := by
  cases x <;> rfl
@[simp] theorem State.setWord_answer (s : State) (x : WordSel) (v : Word) : (s.setWord x v).answer = s.answer := by
  cases x <;> rfl
@[simp] theorem State.setWord_freeReads (s : State) (x : WordSel) (v : Word) : (s.setWord x v).freeReads = s.freeReads := by
  cases x <;> rfl
@[simp] theorem State.setWord_tainted (s : State) (x : WordSel) (v : Word) : (s.setWord x v).tainted = s.tainted := by
  cases x <;> rfl
@[simp] theorem State.setWord_word (s : State) (x y : WordSel) (v : Word) :
    (s.setWord x v).word y = if y = x then some v else s.word y := by
  cases x <;> cases y <;> rfl

@[simp] theorem hostRead_a (idx : BitVec 4) (s : State) : (hostRead idx s).a = s.a := by
  unfold hostRead; split <;> rfl
@[simp] theorem hostRead_b (idx : BitVec 4) (s : State) : (hostRead idx s).b = s.b := by
  unfold hostRead; split <;> rfl
@[simp] theorem hostRead_c (idx : BitVec 4) (s : State) : (hostRead idx s).c = s.c := by
  unfold hostRead; split <;> rfl
@[simp] theorem hostRead_len (idx : BitVec 4) (s : State) : (hostRead idx s).len = s.len := by
  unfold hostRead; split <;> rfl
@[simp] theorem hostRead_seed (idx : BitVec 4) (s : State) : (hostRead idx s).seed = s.seed := by
  unfold hostRead; split <;> rfl
@[simp] theorem hostRead_kaddr (idx : BitVec 4) (s : State) : (hostRead idx s).kaddr = s.kaddr := by
  unfold hostRead; split <;> rfl
@[simp] theorem hostRead_rem (idx : BitVec 4) (s : State) : (hostRead idx s).rem = s.rem := by
  unfold hostRead; split <;> rfl
@[simp] theorem hostRead_cur (idx : BitVec 4) (s : State) : (hostRead idx s).cur = s.cur := by
  unfold hostRead; split <;> rfl
@[simp] theorem hostRead_nmix (idx : BitVec 4) (s : State) : (hostRead idx s).nmix = s.nmix := by
  unfold hostRead; split <;> rfl
@[simp] theorem hostRead_nfin (idx : BitVec 4) (s : State) : (hostRead idx s).nfin = s.nfin := by
  unfold hostRead; split <;> rfl
@[simp] theorem hostRead_done (idx : BitVec 4) (s : State) : (hostRead idx s).done = s.done := by
  unfold hostRead; split <;> rfl
@[simp] theorem hostRead_err (idx : BitVec 4) (s : State) : (hostRead idx s).err = s.err := by
  unfold hostRead; split <;> rfl
@[simp] theorem hostRead_ovr (idx : BitVec 4) (s : State) : (hostRead idx s).ovr = s.ovr := by
  unfold hostRead; split <;> rfl
@[simp] theorem hostRead_ecode (idx : BitVec 4) (s : State) : (hostRead idx s).ecode = s.ecode := by
  unfold hostRead; split <;> rfl
@[simp] theorem hostRead_active (idx : BitVec 4) (s : State) : (hostRead idx s).active = s.active := by
  unfold hostRead; split <;> rfl
@[simp] theorem hostRead_pend (idx : BitVec 4) (s : State) : (hostRead idx s).pend = s.pend := by
  unfold hostRead; split <;> rfl
@[simp] theorem hostRead_kmem (idx : BitVec 4) (s : State) : (hostRead idx s).kmem = s.kmem := by
  unfold hostRead; split <;> rfl
@[simp] theorem hostRead_inbox (idx : BitVec 4) (s : State) : (hostRead idx s).inbox = s.inbox := by
  unfold hostRead; split <;> rfl
@[simp] theorem hostRead_tainted (idx : BitVec 4) (s : State) : (hostRead idx s).tainted = s.tainted := by
  unfold hostRead; split <;> rfl

end Sys2Proof.Machine
end

