-- ==== Sys2Proof/Laws/Ops.lean ====
section
/-!
SUPPORT. One lemma per shared operation that says once everything it can do: the key memory's laws, and the inversion of each shared part of a
command's meaning.
-/
namespace Sys2Proof.Machine

/-! ## Key memory -/

/-- A byte just written reads as written, and every other address reads as before. -/
theorem readCells_writeCells (cells : List Host.Cell) (addr : Nat) (v : Byte) (x : Nat)
    (lo : Nat) (h : risingFrom lo cells = true) :
    readCells (writeCells cells addr v) x = if x = addr then some v else readCells cells x := by
  induction cells generalizing lo with
  | nil => by_cases hx : x = addr <;> simp [writeCells, readCells, hx]
  | cons cell rest ih =>
    simp only [risingFrom, Bool.and_eq_true, decide_eq_true_eq] at h
    have ih := ih _ h.2
    unfold writeCells
    split
    · simp [readCells]
    · split
      · rename_i _ he
        subst he
        by_cases hx : x = cell.1 <;> simp [readCells, hx]
      · rename_i _ hne
        simp only [readCells, ih]
        by_cases hx : x = cell.1
        · simp [hx, Ne.symm hne]
        · simp [hx]

/-- Writing keeps the addresses rising. -/
theorem risingFrom_writeCells (cells : List Host.Cell) (addr : Nat) (v : Byte) (lo : Nat)
    (h : risingFrom lo cells = true) (ha : lo ≤ addr) : risingFrom lo (writeCells cells addr v) = true := by
  induction cells generalizing lo with
  | nil => simp [writeCells, risingFrom, ha]
  | cons cell rest ih =>
    simp only [risingFrom, Bool.and_eq_true, decide_eq_true_eq] at h
    unfold writeCells
    split
    · rename_i hlt
      simp [risingFrom, ha, h.2, Nat.succ_le_of_lt hlt]
    · split
      · rename_i _ he
        simp [risingFrom, he, h.1, h.2]
      · rename_i h1 h2
        have := ih _ h.2 (by omega)
        simp [risingFrom, h.1, this]

/-- Writing adds no address but the one written. -/
theorem all_writeCells (p : Host.Cell → Bool) (cells : List Host.Cell) (addr : Nat) (v : Byte)
    (h : cells.all p = true) (hp : p (addr, v) = true) : (writeCells cells addr v).all p = true := by
  induction cells with
  | nil => simp [writeCells, hp]
  | cons cell rest ih =>
    simp only [List.all_cons, Bool.and_eq_true] at h
    unfold writeCells
    split
    · simp [hp, h.1, h.2]
    · split
      · simp [hp, h.2]
      · simp [h.1, ih h.2]

@[simp] theorem Memory.write_top (m : Memory) (addr : Nat) (v : Byte) : (m.write addr v).top = m.top := by
  unfold Memory.write; split <;> rfl

@[simp] theorem Memory.write_size (m : Memory) (addr : Nat) (v : Byte) : (m.write addr v).size = m.size := by
  simp [Memory.size]

/-- `Memory.write`, the only operation that writes the key memory, keeps the canonical form. -/
theorem Memory.write_wf (m : Memory) (addr : Nat) (v : Byte) (h : m.wf = true) : (m.write addr v).wf = true := by
  unfold Memory.write
  split
  · rename_i ha
    simp only [Memory.wf, Bool.and_eq_true] at h ⊢
    exact ⟨risingFrom_writeCells _ _ _ _ h.1 (Nat.zero_le _), all_writeCells _ _ _ _ h.2 (by simpa [Memory.size] using ha)⟩
  · exact h

/-- What an address reads as after a write (R79). -/
theorem Memory.read_write (m : Memory) (addr : Nat) (v : Byte) (x : Nat) (h : m.wf = true) :
    (m.write addr v).read x = if addr < m.size ∧ x = addr then some v else m.read x := by
  simp only [Memory.wf, Bool.and_eq_true] at h
  unfold Memory.write
  split
  · rename_i ha
    simp [Memory.read, readCells_writeCells _ _ _ _ 0 h.1, ha]
  · rename_i ha
    simp [ha]

/-- All bytes of a range have been written exactly when none of them holds no value. -/
theorem Memory.not_written_iff (m : Memory) (p n : Nat) :
    (!m.written p n) = true ↔ ∃ j, j < n ∧ m.read (p + j) = none := by
  simp [Memory.written, List.all_eq_false]

/-- What the mark of U2 is after a step that reads `n` key bytes at CUR (log 4). -/
theorem markBytes_tainted_iff (n : Nat) (s : State) :
    (markBytes n s).tainted = true ↔ s.tainted = true ∨ ∃ j, j < n ∧ s.kmem.read (s.cur.toNat + j) = none := by
  rw [markBytes_tainted, Bool.or_eq_true, Memory.not_written_iff]

theorem State.reset_kmem_wf : State.reset.kmem.wf = true := rfl

/-! ## State words -/

/-- When the three words are there together. -/
theorem State.words_eq_some (s : State) (t : Words) :
    s.words = some t ↔ s.a = some t.a ∧ s.b = some t.b ∧ s.c = some t.c := by
  obtain ⟨x, y, z⟩ := t
  unfold State.words
  split
  · rename_i h1 h2 h3; simp [h1, h2, h3]
  · rename_i h
    constructor
    · simp
    · rintro ⟨h1, h2, h3⟩; exact absurd h3 (h _ _ _ h1 h2)

/-- MIX's and FINAL's check says exactly that the three words are there. -/
theorem State.wordsOk_iff (s : State) : s.wordsOk = true ↔ ∃ t, s.words = some t := by
  simp only [State.wordsOk, State.av, State.bv, State.cv, Bool.and_eq_true, Option.isSome_iff_exists]
  constructor
  · rintro ⟨⟨⟨x, hx⟩, y, hy⟩, z, hz⟩; exact ⟨⟨x, y, z⟩, (State.words_eq_some _ _).2 ⟨hx, hy, hz⟩⟩
  · rintro ⟨t, ht⟩
    obtain ⟨h1, h2, h3⟩ := (State.words_eq_some _ _).1 ht
    exact ⟨⟨⟨_, h1⟩, _, h2⟩, _, h3⟩

theorem State.busy_iff (s : State) : s.busy = true ↔ s.pend ≠ .none := by
  simp [State.busy]

/-! ## The shared parts of a command's meaning -/

/-- An acceptance check always answers a next state: the started command or the recorded error. -/
theorem acceptIf_next {ok : Bool} {code : ECode} {begin : State → State} {s t : State}
    (h : acceptIf ok code begin s = .next t) : (ok = true ∧ t = begin s) ∨ (ok = false ∧ t = raiseError code s) := by
  cases ok <;> simp_all [acceptIf]

/-- What `offer` does: accept, or drop. -/
theorem offer_next {accept : State → Host.Outcome State Fault Refusal} {s t : State} (h : offer accept s = .next t) :
    (s.pend = .none ∧ accept s = .next t) ∨ (s.pend ≠ .none ∧ t = s.drop) := by
  unfold offer at h
  split at h
  · exact .inl ⟨‹_›, h⟩
  · exact .inr ⟨‹_›, by simpa using h.symm⟩

/-- What a one-step command does: its step where it is pending, else accept or drop. -/
theorem command_next {own : Pend} {accept step : State → Host.Outcome State Fault Refusal} {s t : State}
    (h : command own accept step s = .next t) :
    (s.pend = own ∧ step s = .next t) ∨ (s.pend ≠ own ∧ s.pend = .none ∧ accept s = .next t) ∨
      (s.pend ≠ own ∧ s.pend ≠ .none ∧ t = s.drop) := by
  unfold command at h
  split at h
  · exact .inl ⟨‹_›, h⟩
  · rcases offer_next h with ⟨h1, h2⟩ | ⟨h1, h2⟩
    · exact .inr (.inl ⟨‹_›, h1, h2⟩)
    · exact .inr (.inr ⟨‹_›, h1, h2⟩)

theorem andThen_next {o : Host.Outcome State Fault Refusal} {f : State → State} {t : State}
    (h : andThen o f = .next t) : ∃ s, o = .next s ∧ t = f s := by
  cases o <;> simp_all [andThen]

/-- What a MIX or FINAL step does. -/
theorem roundStep_next {round : Words → Words} {count : State → State} {s t : State}
    (h : roundStep round count s = .next t) :
    ∃ w, s.words = some w ∧ t = (count (s.setWords (round w))).finish := by
  unfold roundStep at h
  split at h <;> simp_all

/-- What a ROTL step does. -/
theorem rotlStep_next {x : WordSel} {sh : BitVec 5} {s t : State} (h : rotlStep x sh s = .next t) :
    ∃ w, s.word x = some w ∧ t = (s.setWord x (rotl32 w sh.toNat)).finish := by
  unfold rotlStep at h
  split at h <;> simp_all

/-- What a BLOCK step body does. -/
theorem blockBody_next {s t : State} (h : blockBody s = .next t) :
    ∃ w, s.words = some w ∧ s.kmem.holds s.cur.toNat 12 = true ∧ t = absorbBlock w s := by
  unfold blockBody at h
  split at h
  · split at h <;> simp_all
  · simp at h

/-- What a TAIL step body does. -/
theorem tailBody_next {s t : State} (h : tailBody s = .next t) :
    ∃ w, s.words = some w ∧ s.kmem.holds s.cur.toNat s.rem.toNat = true ∧ t = absorbTail w s := by
  unfold tailBody at h
  split at h
  · split at h <;> simp_all
  · simp at h

/-- A BLOCK step body answers where the words are there and the bytes are in KMEM. -/
theorem blockBody_eq {s : State} {w : Words} (h : s.words = some w) (hk : s.kmem.holds s.cur.toNat 12 = true) :
    blockBody s = .next (absorbBlock w s) := by
  simp [blockBody, h, hk]

/-- A TAIL step body answers where the words are there and the bytes are in KMEM. -/
theorem tailBody_eq {s : State} {w : Words} (h : s.words = some w)
    (hk : s.kmem.holds s.cur.toNat s.rem.toNat = true) : tailBody s = .next (absorbTail w s) := by
  simp [tailBody, h, hk]

end Sys2Proof.Machine
end

