-- ==== Sys2Proof/Laws/Moves.lean ====
section
/-!
SUPPORT. Says once what the machine can do: the moves of an acceptance (R80), of the engine's turn (R81) and of a step, with one inversion lemma
each. A property of every step is proved by cases on `StepMove`, without unfolding `exec` or `step`.
-/
namespace Sys2Proof.Machine

/-! ## The register map -/

@[simp] theorem Reg.ofIndex_0 : Reg.ofIndex 0#4 = .cmd := rfl
@[simp] theorem Reg.ofIndex_1 : Reg.ofIndex 1#4 = .status := rfl
@[simp] theorem Reg.ofIndex_2 : Reg.ofIndex 2#4 = .len := rfl
@[simp] theorem Reg.ofIndex_3 : Reg.ofIndex 3#4 = .seed := rfl
@[simp] theorem Reg.ofIndex_4 : Reg.ofIndex 4#4 = .kaddr := rfl
@[simp] theorem Reg.ofIndex_5 : Reg.ofIndex 5#4 = .a := rfl
@[simp] theorem Reg.ofIndex_6 : Reg.ofIndex 6#4 = .b := rfl
@[simp] theorem Reg.ofIndex_7 : Reg.ofIndex 7#4 = .c := rfl
@[simp] theorem Reg.ofIndex_8 : Reg.ofIndex 8#4 = .rem := rfl
@[simp] theorem Reg.ofIndex_9 : Reg.ofIndex 9#4 = .cur := rfl
@[simp] theorem Reg.ofIndex_10 : Reg.ofIndex 10#4 = .nmix := rfl
@[simp] theorem Reg.ofIndex_11 : Reg.ofIndex 11#4 = .nfin := rfl
@[simp] theorem Reg.ofIndex_12 : Reg.ofIndex 12#4 = .rsv12 := rfl
@[simp] theorem Reg.ofIndex_13 : Reg.ofIndex 13#4 = .rsv13 := rfl
@[simp] theorem Reg.ofIndex_14 : Reg.ofIndex 14#4 = .rsv14 := rfl
@[simp] theorem Reg.ofIndex_15 : Reg.ofIndex 15#4 = .rsv15 := rfl

@[simp] theorem Reg.ofIndex_index (r : Reg) : Reg.ofIndex r.index = r := by
  cases r <;> rfl

theorem Reg.index_ofIndex (idx : BitVec 4) : (Reg.ofIndex idx).index = idx := by
  revert idx; decide

/-- A register has one index only (R13). -/
theorem Reg.ofIndex_eq_iff (idx : BitVec 4) (r : Reg) : Reg.ofIndex idx = r ↔ idx = r.index :=
  ⟨fun h => h ▸ (Reg.index_ofIndex idx).symm, fun h => by rw [h, Reg.ofIndex_index]⟩

/-! ## Moves -/

/-- What acceptance of a command can answer, PEND being none (R80). -/
inductive AcceptMove (s : State) : Instr → State → Prop
  | nop : AcceptMove s .nop s
  | init (ok : s.lengthOk = true) : AcceptMove s .init (s.start .init)
  | block (ok : s.blockOk = true) : AcceptMove s .block (s.start .block)
  | tail (ok : s.tailOk = true) : AcceptMove s .tail { s with pend := .tail }
  | hash (ok : s.lengthOk = true) : AcceptMove s .hash (s.start .hashInit)
  | mix (ok : s.wordsOk = true) : AcceptMove s .mix (s.start .mix)
  | final (ok : s.wordsOk = true) : AcceptMove s .final (s.start .final)
  | rotl (rs : BitVec 2) (sh : BitVec 5) (x : WordSel) (sel : selectWord rs = some x) (ok : s.wordOk x = true) :
      AcceptMove s (.rotl rs sh) (s.start (.rotl x sh))
  | reject (i : Instr) (code : ECode) (hc : code ≠ .none) : AcceptMove s i (raiseError code s)

/-- What the engine's step of the pending command can answer (R81). -/
inductive EngineMove (s : State) : State → Prop
  | init (hp : s.pend = .init) : EngineMove s (initBody s).finish
  | hashInit (hp : s.pend = .hashInit) : EngineMove s { initBody s with pend := .hashBody }
  | block (hp : s.pend = .block) (w : Words) (hw : s.words = some w) (hk : s.kmem.holds s.cur.toNat 12 = true) :
      EngineMove s (absorbBlock w s).finish
  | hashBlock (hp : s.pend = .hashBody) (hr : 12 < s.rem.toNat) (w : Words) (hw : s.words = some w)
      (hk : s.kmem.holds s.cur.toNat 12 = true) : EngineMove s (absorbBlock w s)
  | tail (hp : s.pend = .tail) (w : Words) (hw : s.words = some w)
      (hk : s.kmem.holds s.cur.toNat s.rem.toNat = true) : EngineMove s (absorbTail w s).finish
  | hashTail (hp : s.pend = .hashBody) (hr : s.rem.toNat ≤ 12) (w : Words) (hw : s.words = some w)
      (hk : s.kmem.holds s.cur.toNat s.rem.toNat = true) : EngineMove s (absorbTail w s).finish
  | mix (hp : s.pend = .mix) (w : Words) (hw : s.words = some w) :
      EngineMove s { s.setWords (Machine.mix w) with nmix := s.nmix + 1, pend := .none }
  | final (hp : s.pend = .final) (w : Words) (hw : s.words = some w) :
      EngineMove s { s.setWords (Machine.final w) with nfin := s.nfin + 1, pend := .none }
  | rotl (x : WordSel) (sh : BitVec 5) (hp : s.pend = .rotl x sh) (w : Word) (hw : s.word x = some w) :
      EngineMove s (s.setWord x (rotl32 w sh.toNat)).finish

/-- A command offered while none is pending makes an acceptance move. -/
theorem exec_accept {i : Instr} {s t : State} (hp : s.pend = .none) (h : exec i s = .next t) : AcceptMove s i t := by
  cases i with
  | nop =>
    simp [exec, execNop, offer, hp] at h
    exact h ▸ .nop
  | init =>
    simp [exec, execInit, command, offer, hp] at h
    rcases acceptIf_next h with ⟨ok, rfl⟩ | ⟨_, rfl⟩
    · exact .init ok
    · exact .reject _ _ (by decide)
  | block =>
    simp [exec, execBlock, command, offer, hp] at h
    rcases acceptIf_next h with ⟨ok, rfl⟩ | ⟨_, rfl⟩
    · exact .block ok
    · exact .reject _ _ (by decide)
  | tail =>
    simp [exec, execTail, command, offer, hp] at h
    rcases acceptIf_next h with ⟨ok, rfl⟩ | ⟨_, rfl⟩
    · exact .tail ok
    · exact .reject _ _ (by decide)
  | hash =>
    simp [exec, execHash, command, offer, hp] at h
    rcases acceptIf_next h with ⟨ok, rfl⟩ | ⟨_, rfl⟩
    · exact .hash ok
    · exact .reject _ _ (by decide)
  | mix =>
    simp [exec, execMix, command, offer, hp] at h
    rcases acceptIf_next h with ⟨ok, rfl⟩ | ⟨_, rfl⟩
    · exact .mix ok
    · exact .reject _ _ (by decide)
  | final =>
    simp [exec, execFinal, command, offer, hp] at h
    rcases acceptIf_next h with ⟨ok, rfl⟩ | ⟨_, rfl⟩
    · exact .final ok
    · exact .reject _ _ (by decide)
  | rotl rs sh =>
    cases hs : selectWord rs with
    | none =>
      simp [exec, execRotl, hs, offer, hp] at h
      exact h ▸ .reject _ _ (by decide)
    | some x =>
      simp [exec, execRotl, hs, command, offer, hp] at h
      rcases acceptIf_next h with ⟨ok, rfl⟩ | ⟨_, rfl⟩
      · exact .rotl _ _ _ hs ok
      · exact .reject _ _ (by decide)

@[simp] theorem selectWord_rs (x : WordSel) : selectWord x.rs = some x := by
  cases x <;> rfl

/-- Where nothing is pending the engine takes no step; otherwise its step is one of the engine's moves. -/
theorem engineTurn_next {s t : State} (h : engineTurn s = .next t) :
    (s.pend = .none ∧ t = s) ∨ (s.pend ≠ .none ∧ EngineMove s t) := by
  unfold engineTurn at h
  cases hp : s.pend with
  | none => simp [hp, pendingInstr] at h; exact .inl ⟨rfl, h.symm⟩
  | init =>
    simp [hp, pendingInstr, exec, execInit, command] at h
    exact .inr ⟨by simp, h ▸ .init hp⟩
  | hashInit =>
    simp [hp, pendingInstr, exec, execHash, command] at h
    exact .inr ⟨by simp, h ▸ .hashInit hp⟩
  | block =>
    simp [hp, pendingInstr, exec, execBlock, command] at h
    obtain ⟨u, hu, rfl⟩ := andThen_next h
    obtain ⟨w, hw, hk, rfl⟩ := blockBody_next hu
    exact .inr ⟨by simp, .block hp w hw hk⟩
  | tail =>
    simp [hp, pendingInstr, exec, execTail, command] at h
    obtain ⟨u, hu, rfl⟩ := andThen_next h
    obtain ⟨w, hw, hk, rfl⟩ := tailBody_next hu
    exact .inr ⟨by simp, .tail hp w hw hk⟩
  | hashBody =>
    simp [hp, pendingInstr, exec, execHash, hashBodyStep] at h
    split at h
    · rename_i hr
      obtain ⟨w, hw, hk, rfl⟩ := blockBody_next h
      exact .inr ⟨by simp, .hashBlock hp hr w hw hk⟩
    · rename_i hr
      obtain ⟨u, hu, rfl⟩ := andThen_next h
      obtain ⟨w, hw, hk, rfl⟩ := tailBody_next hu
      exact .inr ⟨by simp, .hashTail hp (by omega) w hw hk⟩
  | mix =>
    simp [hp, pendingInstr, exec, execMix, command] at h
    obtain ⟨w, hw, rfl⟩ := roundStep_next h
    exact .inr ⟨by simp, .mix hp w hw⟩
  | final =>
    simp [hp, pendingInstr, exec, execFinal, command] at h
    obtain ⟨w, hw, rfl⟩ := roundStep_next h
    exact .inr ⟨by simp, .final hp w hw⟩
  | rotl x sh =>
    simp [hp, pendingInstr, exec, execRotl, command] at h
    obtain ⟨w, hw, rfl⟩ := rotlStep_next h
    exact .inr ⟨by simp, .rotl x sh hp w hw⟩

/-- A command run while one is pending: it is that command and takes its step, or it is dropped (log 8). -/
theorem exec_pending {i : Instr} {s t : State} (hp : s.pend ≠ .none) (h : exec i s = .next t) :
    (pendingInstr s.pend ≠ some i ∧ t = s.drop) ∨ (pendingInstr s.pend = some i ∧ EngineMove s t) := by
  by_cases hi : pendingInstr s.pend = some i
  · have ht : engineTurn s = .next t := by simp [engineTurn, hi, h]
    rcases engineTurn_next ht with ⟨h0, -⟩ | ⟨-, hm⟩
    · exact absurd h0 hp
    · exact .inr ⟨hi, hm⟩
  · refine .inl ⟨hi, ?_⟩
    cases i with
    | rotl rs sh =>
      cases hs : selectWord rs with
      | none => simpa [exec, execRotl, hs, offer, hp] using h.symm
      | some x =>
        have hx : x.rs = rs := by
          have key : ∀ (x : WordSel) (rs : BitVec 2), selectWord rs = some x → x.rs = rs := by
            intro x; cases x <;> decide
          exact key x rs hs
        have hne : s.pend ≠ .rotl x sh := fun h0 => hi (by simp [h0, pendingInstr, hx])
        simpa [exec, execRotl, hs, command, hne, offer, hp] using h.symm
    | nop => simpa [exec, execNop, offer, hp] using h.symm
    | init =>
      have hne : s.pend ≠ .init := fun h0 => hi (by simp [h0, pendingInstr])
      simpa [exec, execInit, command, hne, offer, hp] using h.symm
    | block =>
      have hne : s.pend ≠ .block := fun h0 => hi (by simp [h0, pendingInstr])
      simpa [exec, execBlock, command, hne, offer, hp] using h.symm
    | tail =>
      have hne : s.pend ≠ .tail := fun h0 => hi (by simp [h0, pendingInstr])
      simpa [exec, execTail, command, hne, offer, hp] using h.symm
    | mix =>
      have hne : s.pend ≠ .mix := fun h0 => hi (by simp [h0, pendingInstr])
      simpa [exec, execMix, command, hne, offer, hp] using h.symm
    | final =>
      have hne : s.pend ≠ .final := fun h0 => hi (by simp [h0, pendingInstr])
      simpa [exec, execFinal, command, hne, offer, hp] using h.symm
    | hash =>
      have hne : s.pend ≠ .hashInit := fun h0 => hi (by simp [h0, pendingInstr])
      have hne' : s.pend ≠ .hashBody := fun h0 => hi (by simp [h0, pendingInstr])
      simpa [exec, execHash, command, hne, hne', offer, hp] using h.symm

/-- Everything a step can do. `{ s with inbox := rest }` is the state with the event taken off the order. -/
inductive StepMove (s : State) : State → Prop
  | idle (rest : List Event) (he : s.engineNext = true) (hi : rest = s.inbox.tail) (hp : s.pend = .none) :
      StepMove s { s with inbox := rest }
  | engine (rest : List Event) (t : State) (he : s.engineNext = true) (hi : rest = s.inbox.tail) (hp : s.pend ≠ .none)
      (hm : EngineMove { s with inbox := rest } t) : StepMove s t
  | read (idx : BitVec 4) (rest : List Event) (hi : s.inbox = .regRead idx :: rest) :
      StepMove s (hostRead idx { s with inbox := rest })
  | dropWrite (idx : BitVec 4) (v : Word) (rest : List Event) (hi : s.inbox = .regWrite idx v :: rest) (hb : s.pend ≠ .none)
      (hr : Reg.ofIndex idx ≠ .status) : StepMove s { s with inbox := rest, ovr := true }
  | status (idx : BitVec 4) (v : Word) (rest : List Event) (hi : s.inbox = .regWrite idx v :: rest)
      (hr : Reg.ofIndex idx = .status) : StepMove s (clearStatus v { s with inbox := rest })
  | illegal (idx : BitVec 4) (w : Word) (why : Illegal) (rest : List Event) (hi : s.inbox = .regWrite idx w :: rest)
      (hr : Reg.ofIndex idx = .cmd) (hp : s.pend = .none) (hd : decode w = .illegal why) :
      StepMove s (raiseError .illegal { s with inbox := rest })
  | accept (idx : BitVec 4) (w : Word) (i : Instr) (rest : List Event) (t : State) (hi : s.inbox = .regWrite idx w :: rest)
      (hr : Reg.ofIndex idx = .cmd) (hp : s.pend = .none) (hd : decode w = .command i)
      (hm : AcceptMove { s with inbox := rest } i t) : StepMove s t
  | len (idx : BitVec 4) (v : Word) (rest : List Event) (hi : s.inbox = .regWrite idx v :: rest) (hp : s.pend = .none)
      (hr : Reg.ofIndex idx = .len) : StepMove s { s with inbox := rest, len := v }
  | seed (idx : BitVec 4) (v : Word) (rest : List Event) (hi : s.inbox = .regWrite idx v :: rest) (hp : s.pend = .none)
      (hr : Reg.ofIndex idx = .seed) : StepMove s { s with inbox := rest, seed := v }
  | kaddr (idx : BitVec 4) (v : Word) (rest : List Event) (hi : s.inbox = .regWrite idx v :: rest) (hp : s.pend = .none)
      (hr : Reg.ofIndex idx = .kaddr) : StepMove s { s with inbox := rest, kaddr := v }
  | word (idx : BitVec 4) (x : WordSel) (v : Word) (rest : List Event) (hi : s.inbox = .regWrite idx v :: rest)
      (hp : s.pend = .none) (hr : Reg.ofIndex idx = .a ∧ x = .A ∨ Reg.ofIndex idx = .b ∧ x = .B ∨ Reg.ofIndex idx = .c ∧ x = .C) :
      StepMove s (writeWord x v { s with inbox := rest })
  | ignored (idx : BitVec 4) (v : Word) (rest : List Event) (hi : s.inbox = .regWrite idx v :: rest) (hp : s.pend = .none) :
      StepMove s { s with inbox := rest }
  | dropKey (addr : Word) (v : Byte) (rest : List Event) (hi : s.inbox = .keyWrite addr v :: rest) (hb : s.pend ≠ .none) :
      StepMove s { s with inbox := rest, ovr := true }
  | key (addr : Word) (v : Byte) (rest : List Event) (hi : s.inbox = .keyWrite addr v :: rest) (hp : s.pend = .none) :
      StepMove s { s with inbox := rest, kmem := s.kmem.write addr.toNat v }
  | reset (rest : List Event) (hi : s.inbox = .reset :: rest) : StepMove s (resetInput { s with inbox := rest })
  | waitOn (rest : List Event) (hi : s.inbox = .wait :: rest) (hb : s.pend ≠ .none) :
      StepMove s { hostRead Reg.status.index s with inbox := .engine :: .wait :: rest }
  | waitDone (rest : List Event) (hi : s.inbox = .wait :: rest) (hp : s.pend = .none) :
      StepMove s { hostRead Reg.status.index s with inbox := rest }

theorem step_nil {s : State} (hi : s.inbox = []) : step s = engineTurn s := by
  simp [step, nextEvent, hi]

theorem step_cons {s : State} {e : Event} {rest : List Event} (hi : s.inbox = e :: rest) :
    step s = handle e { s with inbox := rest } := by
  simp [step, nextEvent, hi]

/-- A register write with nothing pending makes one of the moves of R77. -/
theorem writeIdle_move {s t : State} {idx : BitVec 4} {v : Word} {rest : List Event}
    (hi : s.inbox = .regWrite idx v :: rest) (hp : s.pend = .none)
    (h : writeIdle (Reg.ofIndex idx) v { s with inbox := rest } = .next t) : StepMove s t := by
  cases hr : Reg.ofIndex idx <;> simp [hr, writeIdle] at h
  case cmd =>
    unfold accept at h
    split at h
    · rename_i why hd
      injection h with h
      exact h ▸ .illegal idx v why rest hi hr hp hd
    · rename_i i hd
      exact .accept idx v i rest t hi hr hp hd (exec_accept hp h)
  case status => exact h ▸ .status idx v rest hi hr
  case len => exact h ▸ .len idx v rest hi hp hr
  case seed => exact h ▸ .seed idx v rest hi hp hr
  case kaddr => exact h ▸ .kaddr idx v rest hi hp hr
  case a => exact h ▸ .word idx .A v rest hi hp (.inl ⟨hr, rfl⟩)
  case b => exact h ▸ .word idx .B v rest hi hp (.inr (.inl ⟨hr, rfl⟩))
  case c => exact h ▸ .word idx .C v rest hi hp (.inr (.inr ⟨hr, rfl⟩))
  all_goals exact h ▸ .ignored idx v rest hi hp

/-- Every step that answers a next state makes one of the moves. -/
theorem step_move {s t : State} (h : step s = .next t) : StepMove s t := by
  cases hi : s.inbox with
  | nil =>
    have he : s.engineNext = true := by simp [State.engineNext, hi]
    have hs : s = { s with inbox := [] } := by cases s; simp_all
    rw [step_nil hi, hs] at h
    rcases engineTurn_next h with ⟨hp, rfl⟩ | ⟨hp, hm⟩
    · exact .idle [] he (by simp [hi]) hp
    · exact .engine [] t he (by simp [hi]) hp hm
  | cons e rest =>
    rw [step_cons hi] at h
    cases e with
    | regRead idx => simp [handle] at h; exact h ▸ .read idx rest hi
    | regWrite idx v =>
      simp only [handle, hostWrite] at h
      split at h
      · rename_i hc
        simp only [Bool.and_eq_true, bne_iff_ne, ne_eq] at hc
        injection h with h
        exact h ▸ .dropWrite idx v rest hi ((State.busy_iff s).1 hc.1) hc.2
      · rename_i hc
        by_cases hr : Reg.ofIndex idx = .status
        · simp [hr, writeIdle] at h
          exact h ▸ .status idx v rest hi hr
        · have hp : s.pend = .none := by
            by_contra hb
            exact hc (by simp [State.busy, hb, hr])
          exact writeIdle_move hi hp h
    | keyWrite addr v =>
      simp only [handle, hostKeyWrite] at h
      injection h with h
      split at h
      · rename_i hb
        exact h ▸ .dropKey addr v rest hi ((State.busy_iff s).1 hb)
      · rename_i hb
        exact h ▸ .key addr v rest hi (by simpa [State.busy] using hb)
    | engine =>
      have he : s.engineNext = true := by simp [State.engineNext, hi]
      rcases engineTurn_next h with ⟨hp, rfl⟩ | ⟨hp, hm⟩
      · exact .idle rest he (by simp [hi]) hp
      · exact .engine rest t he (by simp [hi]) hp hm
    | reset => simp [handle] at h; exact h ▸ .reset rest hi
    | wait =>
      simp only [handle, hostWait] at h
      injection h with h
      split at h
      · rename_i hb
        exact h ▸ .waitOn rest hi ((State.busy_iff s).1 hb)
      · rename_i hb
        exact h ▸ .waitDone rest hi (by simpa [State.busy] using hb)

end Sys2Proof.Machine
end

