-- ==== Sys2Proof/Laws/PerInstr.lean ====
section
/-!
SUPPORT. Per-instruction laws over the syntax of a command. `OpcodeTable`: under its row's mask the encoder gives the row's match value
(R52 in match/mask form; spec/opcode_table.json).
-/
namespace Sys2Proof.Laws.OpcodeTable

/-- The mask column of a command's row: all 32 bits in Format Z, all but RS and SH in Format S. -/
def mask : Instr → Word
  | .nop => 0xFFFFFFFF#32
  | .init => 0xFFFFFFFF#32
  | .block => 0xFFFFFFFF#32
  | .tail => 0xFFFFFFFF#32
  | .hash => 0xFFFFFFFF#32
  | .mix => 0xFFFFFFFF#32
  | .final => 0xFFFFFFFF#32
  | .rotl _ _ => 0xFFFFE0CF#32

/-- The match column of a command's row: its OP, all other fixed bits being zero. -/
def value : Instr → Word
  | .nop => 0#32
  | .init => 1#32
  | .block => 2#32
  | .tail => 3#32
  | .hash => 4#32
  | .mix => 5#32
  | .final => 6#32
  | .rotl _ _ => 7#32

/-- The word of a well-formed command matches its row. -/
def Statement (i : Instr) : Prop := i.wellFormed = true → encode i &&& mask i = value i

theorem nop : Statement .nop := fun _ => rfl

theorem init : Statement .init := fun _ => rfl

theorem block : Statement .block := fun _ => rfl

theorem tail : Statement .tail := fun _ => rfl

theorem hash : Statement .hash := fun _ => rfl

theorem mix : Statement .mix := fun _ => rfl

theorem final : Statement .final := fun _ => rfl

theorem rotl (rs : BitVec 2) (sh : BitVec 5) : Statement (.rotl rs sh) := by
  intro _
  revert rs sh
  decide

end Sys2Proof.Laws.OpcodeTable
end

