-- ==== Sys2Proof/Tests/Slice0.lean ====
section
/-!
SUPPORT. Tests against values of the spec (95_test_vectors.md and the rules' own examples), each about one step on a small state, and for every
statement with hypotheses a witness that meets them.
-/
namespace Sys2Proof.Tests
open Sys2Proof Sys2Proof.Machine

/-! ## Helpers -/

/-- What `f` finds in the next state. -/
def peek {α : Type} (o : Host.Outcome State Fault Refusal) (f : State → α) : Option α :=
  match o with
  | .next s => some (f s)
  | .fault _ => none
  | .refused _ => none

/-- The machine after reset with KEYMEM_SIZE = 256, the size of the programs of 95 section 4. -/
def fresh : State := { State.reset with kmem := { top := 0xFF#32, cells := [] } }

/-- KEYMEM_SIZE = 16, the size of 95 section 3.9. -/
def tiny : State := { State.reset with kmem := { top := 0xF#32, cells := [] } }

/-- A, B, C = 1, 2, 3: the operands of the examples of R62 and R63. -/
def words123 : State := { fresh with a := some 1#32, b := some 2#32, c := some 3#32 }

/-- A session with `r` bytes left at 0x10. -/
def session (r : Word) : State := { words123 with active := true, cur := 0x10#32, rem := r }

/-- "Four score and seven years ago" (95 section 2). -/
def fourScore : List Byte :=
  [0x46#8, 0x6F#8, 0x75#8, 0x72#8, 0x20#8, 0x73#8, 0x63#8, 0x6F#8, 0x72#8, 0x65#8] ++
  [0x20#8, 0x61#8, 0x6E#8, 0x64#8, 0x20#8, 0x73#8, 0x65#8, 0x76#8, 0x65#8, 0x6E#8] ++
  [0x20#8, 0x79#8, 0x65#8, 0x61#8, 0x72#8, 0x73#8, 0x20#8, 0x61#8, 0x67#8, 0x6F#8]

/-- Those bytes as a function of the offset. -/
def fourScoreKey (j : Nat) : Byte := fourScore.getD j 0

/-- Cells for a list of bytes from an address on. -/
def cellsFrom (addr : Nat) : List Byte → List Host.Cell
  | [] => []
  | v :: rest => (addr, v) :: cellsFrom (addr + 1) rest

/-- The 30-byte key at 0x10, as in P1 and P2. -/
def keyed : State := { fresh with kmem := { top := 0xFF#32, cells := cellsFrom 0x10 fourScore }, len := 30#32, kaddr := 0x10#32 }

/-! ## WellFormed -/

/-- R51, R54: RS = 3 names no state word, whatever SH is. -/
theorem test_wellFormed_refuses_rs3 : ∀ sh : BitVec 5, (Instr.rotl 3#2 sh).wellFormed = false := by decide

/-- RS = 0, 1 and 2 are commands with every SH. -/
theorem test_wellFormed_accepts : ∀ sh : BitVec 5, (Instr.rotl 0#2 sh).wellFormed = true ∧ (Instr.rotl 1#2 sh).wellFormed = true ∧
    (Instr.rotl 2#2 sh).wellFormed = true := by decide

/-! ## Decode: words of R52 and 95 section 3.8, written out bit by bit -/

theorem test_decode_nop : decode 0b00000000000000000000000000000000#32 = .command .nop := by decide
theorem test_decode_init : decode 0b00000000000000000000000000000001#32 = .command .init := by decide
theorem test_decode_block : decode 0b00000000000000000000000000000010#32 = .command .block := by decide
theorem test_decode_tail : decode 0b00000000000000000000000000000011#32 = .command .tail := by decide
theorem test_decode_hash : decode 0b00000000000000000000000000000100#32 = .command .hash := by decide
theorem test_decode_mix : decode 0b00000000000000000000000000000101#32 = .command .mix := by decide
theorem test_decode_final : decode 0b00000000000000000000000000000110#32 = .command .final := by decide
/-- RS = 2 at bits 5:4, SH = 8 at bits 12:8. -/
theorem test_decode_rotl : decode 0b00000000000000000000100000100111#32 = .command (.rotl 2 8) := by decide
theorem test_decode_rotl_ends : decode 0x00000007#32 = .command (.rotl 0 0) ∧ decode 0x00001F27#32 = .command (.rotl 2 31) := by decide
theorem test_decode_illegal_formatS : decode 0x00000037#32 = .illegal .noStateWord ∧ decode 0x00000047#32 = .illegal .reservedBits ∧
    decode 0x00000087#32 = .illegal .reservedBits ∧ decode 0x80000007#32 = .illegal .reservedBits := by decide
theorem test_decode_illegal_formatZ : decode 0x00000010#32 = .illegal .reservedBits ∧ decode 0x80000001#32 = .illegal .reservedBits := by decide
theorem test_decode_illegal_opcode : decode 0x00000008#32 = .illegal .reservedOpcode ∧ decode 0xFFFFFFFF#32 = .illegal .reservedOpcode := by decide

theorem test_decodeTableWord : decodeTableWord 32 0x827 = some (.rotl 2 8) ∧ decodeTableWord 32 0x37 = none ∧ decodeTableWord 32 4 = some .hash := by
  decide

/-! ## The mixer family -/

/-- 95 section 3.1. -/
theorem test_rotl32 : rotl32 0x12345678#32 31 = 0x091A2B3C#32 ∧ rotl32 0x80000000#32 1 = 0x00000001#32 ∧
    rotl32 0xDEADBEEF#32 14 = 0x6FBBF7AB#32 := by decide
/-- 95 section 3.2. -/
theorem test_mix : mix ⟨0xFFFFFFFF, 0xFFFFFFFF, 0xFFFFFFFF⟩ = ⟨0xFFFFFFF9, 0x000FFFF9, 0xFEEFFFFC⟩ ∧
    mix ⟨0, 0, 1⟩ = ⟨0xEAE4D1C9, 0x2DCD1961, 0x9397E6B6⟩ := by decide
/-- 95 section 3.3. -/
theorem test_final : final ⟨0xFFFFFFFF, 0xFFFFFFFF, 0xFFFFFFFF⟩ = ⟨0x673190AE, 0x0105FEF0, 0x08EAF2E5⟩ ∧
    final ⟨0, 0, 1⟩ = ⟨0xBD324300, 0xB60D8BC5, 0xF02A6A49⟩ := by decide

/-- R61's example. -/
theorem test_rotl_step :
    peek (step { words123 with c := some 0x36FF91DB#32, pend := .rotl .C 8 }) (fun t => (t.a, t.c, t.status)) =
      some (some 1#32, some 0xFF91DB36#32, 0x700#32) := by decide
/-- 95 section 3.9: with only A written, ROTL b is rejected with E_UNINIT. -/
theorem test_rotl_uninit :
    peek (step { tiny with a := some 1#32, inbox := [.regWrite 0 0x00000417#32] }) (fun t => (t.status, t.b)) = some (0x144#32, none) := by
  decide
/-- R62's example. -/
theorem test_mix_step :
    peek (step { words123 with pend := .mix }) (fun t => (t.words, t.nmix, t.nfin)) =
      some (some ⟨0x877D02A0, 0xCD175A8D, 0xE3FC5C22⟩, 1#32, 0#32) := by decide
/-- 95 section 3.9. -/
theorem test_mix_uninit : peek (step { tiny with inbox := [.regWrite 0 5#32] }) State.status = some 0x44#32 := by decide
/-- R63's example. -/
theorem test_final_step :
    peek (step { words123 with pend := .final }) (fun t => (t.words, t.nmix, t.nfin, t.done)) =
      some (some ⟨0xC0BBAC72, 0xD6302D23, 0x36FF91DB⟩, 0#32, 1#32, false) := by decide

/-- R82's example: STATUS stays 0x00000702. -/
theorem test_nop :
    peek (step { words123 with done := true, inbox := [.regWrite 0 0#32] }) State.status = some 0x702#32 := by decide
/-- R78: a NOP written while BUSY = 1 sets OVR. -/
theorem test_nop_dropped :
    peek (step { words123 with pend := .mix, inbox := [.regWrite 0 0#32] }) State.status = some 0x709#32 := by decide

/-! ## The hash family -/

/-- 95 section 3.4. -/
theorem test_le32 : le32 (fun j => [0x00#8, 0xE1#8, 0xF5#8, 0x05#8].getD j 0) 0 = 0x05F5E100#32 := by decide
/-- 95 section 3.5. -/
theorem test_iv : iv 0x21524111#32 0 = 0#32 ∧ iv 0xFFFFFFFF#32 0xFFFFFFFF#32 = 0xDEADBEED#32 := by decide
/-- 95 section 3.6: the wrapping row, and the source's r = 5 case. -/
theorem test_tailacc :
    tailacc (fun j => [0x01#8, 0x01#8, 0x01#8, 0x01#8, 0xFF#8, 0xFF#8, 0xFF#8, 0xFF#8, 0x02#8].getD j 0) 0 12
      ⟨0xFFFFFFFF, 0xFFFFFF00, 0xFFFFFFFE⟩ = ⟨0x01010100, 0xFFFFFEFF, 0x00000000⟩ ∧
    tailacc (fun j => BitVec.ofNat 8 (j + 1)) 0 5 ⟨0, 0, 0⟩ = ⟨0x04030201, 0x00000005, 0⟩ := by decide
/-- 95 sections 2 and 3.7. -/
theorem test_jhash : jhash fourScoreKey 30 0 = 0x17770551#32 ∧ jhash (fun j => BitVec.ofNat 8 (j + 1)) 12 0 = 0x2471B813#32 ∧
    jhash (fun j => BitVec.ofNat 8 (j + 1)) 13 0 = 0xE7D7A0E5#32 := by decide

/-- R67's example. -/
theorem test_init_step :
    peek (step { keyed with pend := .init }) (fun t => (t.words, t.rem, t.cur, t.status)) =
      some (some ⟨0xDEADBF0D, 0xDEADBF0D, 0xDEADBF0D⟩, 30#32, 0x10#32, 0xF00#32) := by decide
/-- 95 section 3.9: KADDR = 0xFFFFFFFF, LEN = 2 is rejected, for the sum does not wrap. -/
theorem test_init_length :
    peek (step { tiny with kaddr := 0xFFFFFFFF#32, len := 2#32, inbox := [.regWrite 0 1#32] }) State.status = some 0x24#32 := by decide
/-- R68's example. -/
theorem test_block_step :
    peek (step { keyed with a := some 0xDEADBF0D#32, b := some 0xDEADBF0D#32, c := some 0xDEADBF0D#32, rem := 30#32, cur := 0x10#32,
                            active := true, pend := .block })
        (fun t => (t.words, t.rem, t.cur, t.nmix, t.tainted)) =
      some (some ⟨0xF859AD7A, 0x04BC57AE, 0x40DDDD7E⟩, 18#32, 0x1C#32, 1#32, false) := by decide
/-- R68's corner case: REM = 12 is rejected with E_SEQ. -/
theorem test_block_seq : peek (step { session 12#32 with inbox := [.regWrite 0 2#32] }) State.status = some 0xF34#32 := by decide
/-- R69's example. -/
theorem test_tail_step :
    peek (step { keyed with a := some 0x336ADED2#32, b := some 0x059F2642#32, c := some 0xBD02EBD5#32, rem := 6#32, cur := 0x28#32,
                            active := true, pend := .tail })
        (fun t => (t.words, t.rem, t.cur, t.nfin, t.status)) =
      some (some ⟨0x9A837816, 0xCE7226E6, 0x17770551⟩, 0#32, 0x2E#32, 1#32, 0x702#32) := by decide
/-- R69's corner case: an empty tail leaves the words and runs no Finalization Round. -/
theorem test_tail_empty :
    peek (step { session 0#32 with pend := .tail }) (fun t => (t.words, t.nfin, t.status)) = some (some ⟨1, 2, 3⟩, 0#32, 0x702#32) := by decide
/-- R70: after its INIT step HASH is still pending. -/
theorem test_hash_init_step :
    peek (step { keyed with pend := .hashInit }) (fun t => (t.c, t.pend, t.status)) = some (some 0xDEADBF0D#32, .hashBody, 0xF01#32) := by decide
/-- R70, 95 section 3.7, n = 12: the words after INIT, the bytes 01 .. 0C, and no Mix Round. -/
theorem test_hash_tail_step :
    peek (step { session 12#32 with
          a := some 0xDEADBEFB#32, b := some 0xDEADBEFB#32, c := some 0xDEADBEFB#32, pend := .hashBody,
          kmem := { top := 0xFF#32, cells := cellsFrom 0x10 [1#8, 2#8, 3#8, 4#8, 5#8, 6#8, 7#8, 8#8, 9#8, 10#8, 11#8, 12#8] } })
        (fun t => (t.words, t.nmix, t.nfin, t.status)) =
      some (some ⟨0x2794C5EC, 0x82C0F9DD, 0x2471B813⟩, 0#32, 1#32, 0x702#32) := by decide

/-! ## Host transactions -/

/-- 95 section 3.10: ERR and ECODE are cleared together. -/
theorem test_status_clears :
    peek (step { words123 with err := true, ecode := .illegal, inbox := [.regWrite 1 4#32] }) State.status = some 0x700#32 := by decide
/-- 95 section 3.10: bit 0 is not W1C. -/
theorem test_status_bit0 : peek (step { words123 with done := true, inbox := [.regWrite 1 1#32] }) State.status = some 0x702#32 := by decide
/-- R79: the last byte of KMEM is written, the one beyond it is not. -/
theorem test_keyWrite_ends :
    peek (step { tiny with inbox := [.keyWrite 0xF#32 0xAA#8] }) (fun t => t.kmem.cells) = some [(15, 0xAA#8)] ∧
    peek (step { tiny with inbox := [.keyWrite 0x10#32 0xFF#8] }) (fun t => (t.kmem.cells, t.status)) = some ([], 0#32) := by decide
/-- U2 (log 4): a tail byte that nothing has written marks the state, and the step completes. -/
theorem test_unwritten_marks : peek (step { session 1#32 with pend := .tail }) (fun t => (t.tainted, t.done)) = some (true, true) := by decide
/-- U1 (log 5): the read of A after reset completes, marked. -/
theorem test_read_marked :
    peek (step { fresh with inbox := [.regRead 5] }) (fun t => t.answer.map (fun r => (r.idx, r.marked))) = some (some (5#4, true)) := by decide

/-! ## Placed words (log 2) -/

theorem test_placed_nop : peek (step (State.reset.withFetchWord 32 0)) (fun t => (t.status, t.inbox)) = some (0#32, []) := by decide
theorem test_placed_mix : peek (step (State.reset.withFetchWord 32 5)) State.status = some 0x44#32 := by decide

/-! ## Witnesses: for each statement with hypotheses, a state and operands that meet them, for each of its clauses -/

/-- KEYMEM_SIZE = 256 with A, B, C = 1, 2, 3 and the 30 key bytes, before any session. -/
def ready : State := { keyed with a := some 1#32, b := some 2#32, c := some 3#32 }

theorem witness_inv_ready : ready.Inv := by constructor <;> decide
theorem witness_inv_running : ({ ready with pend := .hashInit } : State).Inv := by constructor <;> decide
theorem witness_inv_session : ({ session 12#32 with pend := .hashBody } : State).Inv := by constructor <;> decide
theorem witness_inv_error : ({ ready with err := true, ecode := .seq } : State).Inv := by constructor <;> decide

theorem witness_ResetInputTakesResetValues :
    ∃ (s : State) (rest : List Event), s.inbox = .reset :: rest ∧ s.pend ≠ .none :=
  ⟨{ ready with pend := .hashInit, inbox := [.reset] }, [], by decide⟩
theorem witness_EveryStepKeepsTheInvariant : ∃ s t : State, s.Inv ∧ step s = .next t ∧ t.pend = .hashBody :=
  ⟨{ ready with pend := .hashInit }, { initBody { ready with pend := .hashInit } with pend := .hashBody }, witness_inv_running, rfl, rfl⟩
theorem witness_NoStepStopsUnderTheInvariant : ∃ s : State, s.Inv ∧ s.pend = .hashBody := ⟨_, witness_inv_session, rfl⟩
theorem witness_WordDecodesExactlyToItsCommand :
    decode 0x1F27#32 = .command (.rotl 2 31) ∧ (Instr.rotl 2 31).wellFormed = true ∧ encode (.rotl 2 31) = 0x1F27#32 := by decide
/-- A word for each clause of R53, at the ends of its range. -/
theorem witness_DecodeFollowsTheFieldsOfTheWord :
    let n := fun (w : Word) => w.toNat
    (n 0x2007 % 16 = 7 ∧ n 0x2007 / 8192 ≠ 0) ∧ (n 0x47 % 16 = 7 ∧ n 0x47 / 64 % 4 ≠ 0) ∧ (n 0x37 % 16 = 7 ∧ n 0x37 / 16 % 4 = 3) ∧
    (n 0x1F27 % 16 = 7 ∧ n 0x1F27 / 8192 = 0 ∧ n 0x1F27 / 64 % 4 = 0 ∧ n 0x1F27 / 16 % 4 ≠ 3) ∧ 8 ≤ n 0x8 % 16 ∧ 8 ≤ n 0xF % 16 ∧
    (n 0x16 % 16 < 7 ∧ n 0x16 / 16 ≠ 0) ∧ (n 0 % 16 < 7 ∧ n 0 / 16 = 0) ∧ (n 6 % 16 < 7 ∧ n 6 / 16 = 0) := by decide
theorem witness_StepRunsTheDecodedCommand : ∃ (s : State) (w : Word) (i : Instr) (rest : List Event),
    s.inbox = .regWrite 0 w :: rest ∧ s.pend = .none ∧ decode w = .command i :=
  ⟨{ ready with inbox := [.regWrite 0 0x827#32] }, 0x827#32, .rotl 2 8, [], by decide⟩
/-- The engine's turn with every pending command, standing in the inbox or after it. -/
theorem witness_EngineTurnRunsThePendingCommand :
    ∀ p ∈ [Pend.none, .init, .block, .tail, .mix, .final, .hashInit, .hashBody, .rotl .A 0, .rotl .B 1, .rotl .C 31],
      ∃ s u : State, s.engineNext = true ∧ s.pend = p ∧ u.engineNext = true ∧ u.pend = p ∧ u.inbox ≠ [] := fun p _ =>
  ⟨{ ready with pend := p }, { ready with pend := p, inbox := [.engine] }, rfl, rfl, rfl, rfl, by simp⟩
theorem witness_PlacedWordRunsNext : (Instr.rotl 2 31).wellFormed = true ∧ Instr.hash.wellFormed = true := by decide
theorem witness_IllegalWordRecordsEIllegal : ∃ (s : State) (w : Word) (why : Illegal) (rest : List Event),
    s.inbox = .regWrite 0 w :: rest ∧ s.pend = .none ∧ decode w = .illegal why :=
  ⟨{ ready with inbox := [.regWrite 0 0x37#32] }, 0x37#32, .noStateWord, [], by decide⟩
/-- KADDR + LEN one beyond KEYMEM_SIZE, and exactly at it. -/
theorem witness_LengthIsCheckedAtInitAndHash : ∃ s u : State,
    (s.pend = .none ∧ s.kmem.top.toNat + 1 < s.kaddr.toNat + s.len.toNat) ∧
    (u.pend = .none ∧ u.kaddr.toNat + u.len.toNat ≤ u.kmem.top.toNat + 1) :=
  ⟨{ tiny with kaddr := 16#32, len := 1#32 }, { tiny with kaddr := 16#32, len := 0#32 }, by decide⟩
/-- REM = 12 and REM = 13 in a session, and no session. -/
theorem witness_SequenceIsCheckedAtBlockAndTail : ∃ s u v : State,
    (s.pend = .none ∧ s.active = true ∧ s.rem.toNat ≤ 12 ∧ s.rem = 12) ∧ (u.pend = .none ∧ u.active = true ∧ 12 < u.rem.toNat ∧ u.rem = 13) ∧
    (v.pend = .none ∧ v.active = false) :=
  ⟨session 12#32, session 13#32, ready, by decide⟩
theorem witness_MissingWordsAreCheckedAtMixerCommands :
    (∃ s : State, s.pend = .none ∧ s.a = none) ∧ (∃ s : State, s.pend = .none ∧ s.b = none) ∧ (∃ s : State, s.pend = .none ∧ s.c = none) ∧
    (∃ s t : State, step s = .next t ∧ (∀ rest, s.inbox ≠ .reset :: rest) ∧ s.a ≠ none ∧ s.b ≠ none ∧ s.c ≠ none) :=
  ⟨⟨fresh, rfl, rfl⟩, ⟨fresh, rfl, rfl⟩, ⟨fresh, rfl, rfl⟩, ⟨ready, ready, rfl, fun _ h => (by cases h), by decide, by decide, by decide⟩⟩
theorem witness_RejectionChangesOnlyErrAndEcode : ∃ (s t : State) (i : Instr),
    s.pend = .none ∧ exec i s = .next t ∧ (t.err ≠ s.err ∨ t.ecode ≠ s.ecode) :=
  ⟨fresh, raiseError .uninit fresh, .mix, rfl, rfl, by decide⟩
theorem witness_StatusWriteOnlyClears : ∃ (s : State) (v : Word) (rest : List Event), s.inbox = .regWrite 1 v :: rest ∧ s.pend ≠ .none :=
  ⟨{ ready with pend := .mix, inbox := [.regWrite 1 0xE#32] }, 0xE#32, [], by decide⟩
theorem witness_BusyWritesAreDropped :
    (∃ (s : State) (idx : BitVec 4) (v : Word), s.pend ≠ .none ∧ s.inbox = .regWrite idx v :: [] ∧ idx ≠ 1) ∧
    (∃ (s : State) (addr : Word) (v : Byte), s.pend ≠ .none ∧ s.inbox = .keyWrite addr v :: []) ∧
    (∃ (s : State) (v : Word), s.pend ≠ .none ∧ s.inbox = .regWrite 1 v :: []) :=
  ⟨⟨{ ready with pend := .mix, inbox := [.regWrite 15 7#32] }, 15, 7#32, by decide⟩,
    ⟨{ ready with pend := .mix, inbox := [.keyWrite 3#32 0xFF#8] }, 3#32, 0xFF#8, by decide⟩,
    ⟨{ ready with pend := .mix, inbox := [.regWrite 1 8#32] }, 8#32, by decide⟩⟩
theorem witness_IdleRegisterWritesStore : ∀ idx ∈ [2#4, 3#4, 4#4, 5#4, 6#4, 7#4, 8#4, 15#4],
    ∃ s : State, s.pend = .none ∧ s.inbox = [.regWrite idx 9#32] := fun idx _ => ⟨{ ready with inbox := [.regWrite idx 9#32] }, rfl, rfl⟩
theorem witness_RegisterReadsAnswerTheRegister : ∃ (s : State) (v w : Word),
    some v = [some 0, some s.status, some s.len, some s.seed, some s.kaddr, s.a, s.b, s.c, some s.rem, some s.cur, some s.nmix,
      some s.nfin, some 0, some 0, some 0, some 0].getD (7#4).toNat none ∧
    some w = [some 0, some s.status, some s.len, some s.seed, some s.kaddr, s.a, s.b, s.c, some s.rem, some s.cur, some s.nmix,
      some s.nfin, some 0, some 0, some 0, some 0].getD (15#4).toNat none ∧ s.inbox = [.regRead 7] :=
  ⟨{ ready with inbox := [.regRead 7] }, 3#32, 0#32, by decide⟩
theorem witness_ReadOfAMissingWordIsMarked : ∀ idx ∈ [5#4, 6#4, 7#4], ∃ s : State,
    s.inbox = [.regRead idx] ∧ ((idx = 5 ∧ s.a = none) ∨ (idx = 6 ∧ s.b = none) ∨ (idx = 7 ∧ s.c = none)) := by
  intro idx h
  refine ⟨{ fresh with inbox := [.regRead idx] }, rfl, ?_⟩
  simpa [fresh, State.reset] using h
/-- The last byte of KMEM, the first beyond it, and a write while BUSY = 1. -/
theorem witness_KeyWriteSetsItsByteAlone : ∃ s u v : State,
    (s.kmem.wf = true ∧ s.inbox = [.keyWrite 0xF#32 1#8] ∧ s.pend = .none ∧ (0xF#32).toNat < s.kmem.size) ∧
    (u.kmem.wf = true ∧ u.inbox = [.keyWrite 0x10#32 1#8] ∧ u.pend = .none ∧ u.kmem.size ≤ (0x10#32).toNat) ∧
    (v.kmem.wf = true ∧ v.inbox = [.keyWrite 0x10#32 1#8] ∧ v.pend ≠ .none) :=
  ⟨{ tiny with inbox := [.keyWrite 0xF#32 1#8] }, { tiny with inbox := [.keyWrite 0x10#32 1#8] },
    { ready with pend := .mix, inbox := [.keyWrite 0x10#32 1#8] }, by decide⟩
theorem witness_WaitRereadsStatusWhileBusy : ∃ s u : State,
    (s.inbox = [.wait] ∧ s.pend = .none) ∧ (u.inbox = [.wait] ∧ u.pend ≠ .none) :=
  ⟨{ ready with inbox := [.wait] }, { ready with pend := .hashInit, inbox := [.wait] }, by decide⟩
theorem witness_NopHasNoEffect : ∃ (s u : State) (w : Word), s.pend = .none ∧ u.pend ≠ .none ∧ w.toNat % 16 = 0 ∧ w ≠ 0 :=
  ⟨ready, { ready with pend := .mix }, 0x10#32, by decide⟩
theorem witness_RotlFollowsItsRule :
    (0#2 ≠ 3 ∧ 1#2 ≠ 3 ∧ 2#2 ≠ 3) ∧ (∀ w ∈ [0x37#32, 0x47#32, 0x2007#32], w.toNat % 16 = 7) ∧ (0x37#32).toNat / 16 % 4 = 3 ∧
    (0x47#32).toNat / 64 % 4 ≠ 0 ∧ (0x2007#32).toNat / 8192 ≠ 0 ∧ (ready.pend = .none ∧ ready.a = some 1 ∧ ready.b = some 2 ∧ ready.c = some 3) ∧
    (fresh.pend = .none ∧ fresh.a = none ∧ fresh.b = none ∧ fresh.c = none) ∧
    ∃ s u v : State, (s.pend = .rotl .A 0 ∧ s.a = some 1) ∧ (u.pend = .rotl .B 31 ∧ u.b = some 2) ∧ (v.pend = .rotl .C 8 ∧ v.c = some 3) :=
  ⟨by decide, (by simp), by decide, by decide, by decide, by decide, by decide, { ready with pend := .rotl .A 0 }, { ready with pend := .rotl .B 31 }, { ready with pend := .rotl .C 8 }, by decide⟩
theorem witness_MixFollowsItsRule : ∃ (s u v : State) (w : Word), (w.toNat % 16 = 5 ∧ w ≠ 5) ∧
    (s.pend = .none ∧ s.a = some 1 ∧ s.b = some 2 ∧ s.c = some 3) ∧ (u.pend = .none ∧ (u.a = none ∨ u.b = none ∨ u.c = none)) ∧
    (v.pend = .mix ∧ v.a = some 1 ∧ v.b = some 2 ∧ v.c = some 3) :=
  ⟨ready, { ready with c := none }, { ready with pend := .mix }, 0x15#32, by decide⟩
theorem witness_FinalFollowsItsRule : ∃ (s u v : State) (w : Word), (w.toNat % 16 = 6 ∧ w ≠ 6) ∧
    (s.pend = .none ∧ s.a = some 1 ∧ s.b = some 2 ∧ s.c = some 3) ∧ (u.pend = .none ∧ (u.a = none ∨ u.b = none ∨ u.c = none)) ∧
    (v.pend = .final ∧ v.a = some 1 ∧ v.b = some 2 ∧ v.c = some 3) :=
  ⟨ready, { ready with b := none }, { ready with pend := .final }, 0x16#32, by decide⟩
theorem witness_RotateMovesEachBit : 0 ≤ 31 ∧ 31 ≤ 31 ∧ (31 : Nat) < 32 := by decide
theorem witness_RotateLaws : (0 : Nat) ≤ 31 ∧ (31 : Nat) ≤ 31 := by decide
theorem witness_InitFollowsItsRule : ∃ (s u v : State) (w : Word), (w.toNat % 16 = 1 ∧ w ≠ 1) ∧
    (s.pend = .none ∧ s.kaddr.toNat + s.len.toNat ≤ s.kmem.size) ∧ (u.pend = .none ∧ u.kmem.size < u.kaddr.toNat + u.len.toNat) ∧
    v.pend = .init :=
  ⟨{ tiny with kaddr := 16#32 }, { tiny with kaddr := 16#32, len := 1#32 }, { ready with pend := .init }, 0x11#32, by decide⟩
/-- The step clause at the last twelve bytes of KMEM. -/
theorem witness_BlockFollowsItsRule : ∃ (s u v z : State) (w : Word), (w.toNat % 16 = 2 ∧ w ≠ 2) ∧
    (s.pend = .none ∧ s.active = true ∧ 12 < s.rem.toNat) ∧ (u.pend = .none ∧ u.active = true ∧ u.rem.toNat ≤ 12) ∧
    (z.pend = .none ∧ z.active = false) ∧
    (v.pend = .block ∧ v.a = some 1 ∧ v.b = some 2 ∧ v.c = some 3 ∧ v.cur.toNat + 12 ≤ v.kmem.size) :=
  ⟨session 13#32, session 12#32, { session 13#32 with pend := .block, cur := 244#32 }, ready, 0x12#32, by decide⟩
/-- The step clause at REM = 12, at REM = 0, and at the end of KMEM. -/
theorem witness_TailFollowsItsRule : ∃ (s u v z : State) (w : Word), (w.toNat % 16 = 3 ∧ w ≠ 3) ∧
    (s.pend = .none ∧ s.active = true ∧ s.rem.toNat ≤ 12) ∧ (u.pend = .none ∧ u.active = true ∧ 12 < u.rem.toNat) ∧
    (v.pend = .tail ∧ v.rem.toNat ≤ 12 ∧ v.a = some 1 ∧ v.b = some 2 ∧ v.c = some 3 ∧ v.cur.toNat + v.rem.toNat ≤ v.kmem.size ∧ 1 ≤ v.rem.toNat) ∧
    (z.pend = .tail ∧ z.rem.toNat ≤ 12 ∧ z.a = some 1 ∧ z.b = some 2 ∧ z.c = some 3 ∧ z.cur.toNat + z.rem.toNat ≤ z.kmem.size ∧ z.rem = 0) :=
  ⟨session 12#32, session 13#32, { session 12#32 with pend := .tail, cur := 244#32 }, { session 0#32 with pend := .tail, cur := 256#32 }, 0x13#32,
    by decide⟩
theorem witness_HashRunsTheBodiesOfInitBlockAndTail : ∃ (s u i b t : State) (w : Word), (w.toNat % 16 = 4 ∧ w ≠ 4) ∧
    (s.pend = .none ∧ s.kaddr.toNat + s.len.toNat ≤ s.kmem.size) ∧ (u.pend = .none ∧ u.kmem.size < u.kaddr.toNat + u.len.toNat) ∧
    i.pend = .hashInit ∧
    (b.pend = .hashBody ∧ 12 < b.rem.toNat ∧ b.a = some 1 ∧ b.b = some 2 ∧ b.c = some 3 ∧ b.cur.toNat + 12 ≤ b.kmem.size) ∧
    (t.pend = .hashBody ∧ t.rem.toNat ≤ 12 ∧ t.a = some 1 ∧ t.b = some 2 ∧ t.c = some 3 ∧ t.cur.toNat + t.rem.toNat ≤ t.kmem.size) :=
  ⟨ready, { tiny with len := 17#32 }, { ready with pend := .hashInit }, { session 13#32 with pend := .hashBody },
    { session 12#32 with pend := .hashBody }, 0x14#32, by decide⟩
theorem witness_KeyBytesPackLittleEndian : (0 : Nat) < 4 ∧ (3 : Nat) < 4 := by decide
theorem witness_TailBytesAddAsLittleEndianWords : (0 : Nat) ≤ 12 ∧ (12 : Nat) ≤ 12 := by decide
theorem witness_InitialValueSeparatesLengths : (3#32 : Word) ≠ 4#32 := by decide
theorem witness_JhashReadsOnlyItsKey : ∃ (key key' : Nat → Byte) (n : Word), (∀ j, j < n.toNat → key j = key' j) ∧ key 30 ≠ key' 30 ∧ n = 30 :=
  ⟨fourScoreKey, fun j => if j < 30 then fourScoreKey j else 1, 30#32, fun j hj => (if_pos hj).symm, by decide, rfl⟩
theorem witness_HashComputesJhash : ∃ s : State,
    s.pend = .none ∧ s.inbox = [] ∧ s.kaddr.toNat + s.len.toNat ≤ s.kmem.size ∧ s.len = 30 ∧ s.key 0 = 0x46#8 ∧ s.key 29 = 0x6F#8 ∧
    0 < 2 + nblocks s.len.toNat ∧ 3 < 2 + nblocks s.len.toNat ∧ ¬ 4 < 2 + nblocks s.len.toNat :=
  ⟨ready, by decide⟩
theorem witness_StepwiseSequenceEqualsHash : ∃ s : State,
    s.pend = .none ∧ s.inbox = [] ∧ s.kaddr.toNat + s.len.toNat ≤ s.kmem.size ∧
    stepwise s.len.toNat = [.init, .block, .block, .tail] := ⟨ready, by decide⟩
/-- The two states differ in A, B, C, KADDR and STATUS, and hold the same one-byte key at different addresses. -/
theorem witness_HashDependsOnlyOnLengthSeedAndKey : ∃ s s' : State, s.pend = .none ∧ s'.pend = .none ∧ s.inbox = [] ∧ s'.inbox = [] ∧
    s.kaddr.toNat + s.len.toNat ≤ s.kmem.size ∧ s'.kaddr.toNat + s'.len.toNat ≤ s'.kmem.size ∧ s.len = s'.len ∧ s.seed = s'.seed ∧
    (∀ j, j < s.len.toNat → s.key j = s'.key j) ∧ s.kaddr ≠ s'.kaddr ∧ s.a ≠ s'.a ∧ s.len = 1 := by
  refine ⟨{ keyed with len := 1#32 }, { words123 with len := 1#32, kaddr := 0xFF#32, kmem := { top := 0xFF#32, cells := [(0xFF, 0x46#8)] } }, ?_⟩
  decide
theorem witness_EveryPendingCommandEnds : ∃ s : State, s.Inv ∧ s.inbox = [] ∧ s.pend = .hashInit := ⟨_, witness_inv_running, rfl, rfl⟩
theorem witness_EveryWaitEnds : ∃ (s : State) (rest : List Event), s.Inv ∧ s.inbox = .wait :: rest ∧ s.pend = .hashInit :=
  ⟨{ ready with pend := .hashInit, inbox := [.wait, .regRead 7] }, [.regRead 7], by constructor <;> decide, rfl, rfl⟩

/-! A next state exists for the frames and the rules over all steps, in the case each of their clauses speaks of. -/

theorem witness_CommandsLeaveMemoryAndOperandRegisters : ∃ s t : State, exec .init s = .next t ∧ t.ovr ≠ s.ovr :=
  ⟨{ ready with pend := .mix }, State.drop { ready with pend := .mix }, rfl, by decide⟩
theorem witness_MixerCommandsFrame :
    (∃ s t : State, exec .mix s = .next t ∧ t.nmix ≠ s.nmix ∧ t.a ≠ s.a) ∧ (∃ s t : State, exec .final s = .next t ∧ t.nfin ≠ s.nfin) ∧
    (∃ s t : State, exec (.rotl 0 1) s = .next t ∧ t.a ≠ s.a) ∧ (∃ s t : State, exec .mix s = .next t ∧ t.done ≠ s.done) ∧
    (∃ s t : State, exec .mix s = .next t ∧ t.err ≠ s.err) ∧ (∃ s t : State, exec .nop s = .next t) :=
  ⟨⟨{ ready with pend := .mix }, _, rfl, by decide⟩, ⟨{ ready with pend := .final }, _, rfl, by decide⟩,
    ⟨{ ready with pend := .rotl .A 1 }, _, rfl, by decide⟩, ⟨{ ready with done := true }, _, rfl, by decide⟩, ⟨fresh, _, rfl, by decide⟩,
    ⟨ready, _, rfl⟩⟩
theorem witness_HashCommandsFrame :
    (∃ s t : State, exec .hash s = .next t ∧ s.pend = .none ∧ t.done ≠ s.done) ∧
    (∃ s t : State, exec .init s = .next t ∧ s.pend = .init) ∧ (∃ s t : State, exec .block s = .next t ∧ s.pend = .block ∧ t.tainted ≠ s.tainted) ∧
    (∃ s t : State, exec .tail s = .next t ∧ s.pend = .tail ∧ t.tainted ≠ s.tainted) ∧ (∃ s t : State, exec .hash s = .next t ∧ s.pend = .hashInit) ∧
    (∃ s t : State, exec .hash s = .next t ∧ s.pend = .hashBody ∧ 12 < s.rem.toNat ∧ t.tainted ≠ s.tainted) ∧
    (∃ s t : State, exec .hash s = .next t ∧ s.pend = .hashBody ∧ s.rem.toNat ≤ 12 ∧ t.done ≠ s.done ∧ t.tainted ≠ s.tainted) :=
  ⟨⟨{ ready with done := true }, _, rfl, by decide⟩, ⟨{ ready with pend := .init }, _, rfl, rfl⟩,
    ⟨{ session 13#32 with pend := .block }, _, rfl, by decide⟩, ⟨{ session 12#32 with pend := .tail }, _, rfl, by decide⟩,
    ⟨{ ready with pend := .hashInit }, _, rfl, rfl⟩, ⟨{ session 13#32 with pend := .hashBody }, _, rfl, by decide⟩,
    ⟨{ session 12#32 with pend := .hashBody }, _, rfl, by decide⟩⟩
theorem witness_OnlyIdleKeyWritesChangeKeyMemory :
    (∃ s t : State, s.kmem.wf = true ∧ step s = .next t ∧ t.kmem.read 3 ≠ s.kmem.read 3) ∧
    (∃ s t : State, s.kmem.wf = true ∧ step s = .next t ∧ s.pend ≠ .none ∧ ∀ rest, s.inbox ≠ .reset :: rest) :=
  ⟨⟨{ tiny with inbox := [.keyWrite 3#32 7#8] }, _, rfl, rfl, by decide⟩, ⟨{ ready with pend := .mix }, _, rfl, rfl, by decide, fun _ h => (by cases h)⟩⟩
theorem witness_DoneIsSetOnlyByTheTailStep :
    (∃ s t : State, step s = .next t ∧ s.done = false ∧ t.done = true) ∧ (∃ s t : State, step s = .next t ∧ s.done = true ∧ t.done = false) :=
  ⟨⟨{ session 12#32 with pend := .hashBody }, _, rfl, by decide⟩, ⟨{ ready with done := true, inbox := [.regWrite 5 7#32] }, _, rfl, by decide⟩⟩
theorem witness_ActiveFollowsTheSession :
    (∃ s t : State, step s = .next t ∧ s.active = false ∧ t.active = true) ∧ (∃ s t : State, step s = .next t ∧ s.active = true ∧ t.active = false) ∧
    (∃ s t : State, step s = .next t ∧ s.active = true ∧ s.inbox = [.reset]) :=
  ⟨⟨{ ready with pend := .hashInit }, _, rfl, by decide⟩, ⟨{ session 0#32 with pend := .tail }, _, rfl, by decide⟩,
    ⟨{ session 13#32 with inbox := [.reset] }, _, rfl, by decide⟩⟩
theorem witness_ValidBitsFollowTheWords :
    (∃ s t : State, step s = .next t ∧ s.av = true ∧ t.av = false ∧ s.bv = true ∧ t.bv = false ∧ s.cv = true ∧ t.cv = false) ∧
    (∃ s t : State, step s = .next t ∧ s.av = false ∧ t.av = true ∧ s.bv = false ∧ t.bv = true ∧ s.cv = false ∧ t.cv = true) ∧
    (∃ s t : State, step s = .next t ∧ s.bv = false ∧ t.bv = true ∧ t.av = false) :=
  ⟨⟨{ ready with inbox := [.reset] }, _, rfl, by decide⟩, ⟨{ fresh with pend := .init }, _, rfl, by decide⟩,
    ⟨{ fresh with inbox := [.regWrite 6 7#32] }, _, rfl, by decide⟩⟩
theorem witness_CountersCountRounds :
    (∀ p ∈ [Pend.mix, .block, .hashBody], ∃ s t : State, step s = .next t ∧ s.engineNext = true ∧ s.pend = p ∧ 12 < s.rem.toNat ∧ t.nmix ≠ s.nmix) ∧
    (∀ p ∈ [Pend.final, .tail, .hashBody], ∃ s t : State, step s = .next t ∧ s.engineNext = true ∧ s.pend = p ∧ s.rem.toNat ≤ 12 ∧
      1 ≤ s.rem.toNat ∧ t.nfin ≠ s.nfin) ∧
    (∀ p ∈ [Pend.init, .hashInit], ∃ s t : State, step s = .next t ∧ s.engineNext = true ∧ s.pend = p ∧ t.nmix ≠ s.nmix ∧ t.nfin ≠ s.nfin) ∧
    (∃ s t : State, step s = .next t ∧ s.inbox = [.reset] ∧ t.nmix ≠ s.nmix ∧ t.nfin ≠ s.nfin) := by
  refine ⟨fun p h => ⟨{ session 13#32 with pend := p, nmix := 0xFFFFFFFF#32 }, ?_⟩, fun p h => ⟨{ session 12#32 with pend := p }, ?_⟩,
    fun p h => ⟨{ ready with pend := p, nmix := 5#32, nfin := 1#32 }, ?_⟩, ⟨{ ready with nmix := 5#32, nfin := 1#32, inbox := [.reset] }, ?_⟩⟩
  · simp only [List.mem_cons, List.not_mem_nil, or_false] at h
    rcases h with rfl | rfl | rfl <;> exact ⟨_, rfl, by decide⟩
  · simp only [List.mem_cons, List.not_mem_nil, or_false] at h
    rcases h with rfl | rfl | rfl <;> exact ⟨_, rfl, by decide⟩
  · simp only [List.mem_cons, List.not_mem_nil, or_false] at h
    rcases h with rfl | rfl <;> exact ⟨_, rfl, by decide⟩
  · exact ⟨_, rfl, by decide⟩
theorem witness_CursorStaysOnTheKey :
    (∃ s t : State, s.Inv ∧ step s = .next t ∧ s.engineNext = true ∧ s.pend = .hashInit ∧ s.len ≠ 0) ∧
    (∃ s t : State, s.Inv ∧ step s = .next t ∧ s.active = true ∧ t.active = true ∧ s.inbox = [.regWrite 2 7#32] ∧ s.pend = .none) ∧
    (∃ s t : State, s.Inv ∧ step s = .next t ∧ s.active = true ∧ t.active = true ∧ s.engineNext = true ∧ s.pend = .block) ∧
    (∃ s t : State, s.Inv ∧ step s = .next t ∧ s.engineNext = true ∧ s.pend = .hashBody ∧ s.rem = 13) ∧
    (∃ s t : State, s.Inv ∧ step s = .next t ∧ s.engineNext = true ∧ s.pend = .tail ∧ t.cur.toNat ≠ s.cur.toNat + s.rem.toNat) :=
  ⟨⟨{ ready with pend := .hashInit }, _, witness_inv_running, rfl, rfl, rfl, by decide⟩,
    ⟨{ session 13#32 with inbox := [.regWrite 2 7#32] }, _, by constructor <;> decide, rfl, rfl, rfl, rfl, rfl⟩,
    ⟨{ session 13#32 with pend := .block }, _, by constructor <;> decide, rfl, rfl, rfl, rfl, rfl⟩,
    ⟨{ session 13#32 with pend := .hashBody }, _, by constructor <;> decide, rfl, rfl, rfl, rfl⟩,
    ⟨{ session 1#32 with pend := .tail, cur := 0xFFFFFFFF#32, kmem := { top := 0xFFFFFFFF#32, cells := [(0xFFFFFFFF, 1#8)] } }, _,
      by constructor <;> decide, rfl, rfl, rfl, by decide⟩⟩
theorem witness_HostCannotDisturbARunningCommand : ∀ e ∈ [Event.regRead 7, .regWrite 0 5#32, .regWrite 1 0xE#32, .keyWrite 0 1#8, .wait],
    ∃ s t : State, s.pend ≠ .none ∧ s.inbox = [e] ∧ e ≠ .engine ∧ e ≠ .reset ∧ step s = .next t := by
  intro e h
  refine ⟨{ ready with pend := .hashInit, inbox := [e] }, ?_⟩
  simp only [List.mem_cons, List.not_mem_nil, or_false] at h
  rcases h with rfl | rfl | rfl | rfl | rfl <;> exact ⟨_, by decide, rfl, by decide, by decide, rfl⟩
theorem witness_BusyFollowsThePendingCommand :
    (∃ s t : State, step s = .next t ∧ s.busy = false ∧ t.busy = true) ∧
    (∃ s t : State, step s = .next t ∧ s.busy = true ∧ s.engineNext = true ∧ s.pend ≠ .hashInit ∧ (s.pend = .hashBody → s.rem.toNat ≤ 12) ∧
      t.busy = false) :=
  ⟨⟨{ ready with inbox := [.regWrite 0 4#32] }, _, rfl, by decide⟩, ⟨{ session 12#32 with pend := .hashBody }, _, rfl, by decide⟩⟩
theorem witness_ErrorStaysUntilItIsCleared :
    (∃ s t : State, step s = .next t ∧ s.err = false ∧ t.err = true ∧ t.ecode ≠ s.ecode) ∧
    (∃ s t : State, step s = .next t ∧ s.err = true ∧ t.err = false ∧ t.ecode ≠ s.ecode) ∧
    (∃ s t : State, step s = .next t ∧ s.err = true ∧ t.err = true ∧ s.inbox = [.regWrite 0 8#32]) ∧
    (∃ s t : State, step s = .next t ∧ s.inbox = [.reset] ∧ t.ecode ≠ s.ecode) :=
  ⟨⟨{ ready with inbox := [.regWrite 0 8#32] }, _, rfl, by decide⟩,
    ⟨{ ready with err := true, ecode := .seq, inbox := [.regWrite 1 4#32] }, _, rfl, by decide⟩,
    ⟨{ ready with err := true, ecode := .seq, inbox := [.regWrite 0 8#32] }, _, rfl, by decide⟩,
    ⟨{ ready with err := true, ecode := .seq, inbox := [.reset] }, _, rfl, by decide⟩⟩
theorem witness_OvrRecordsDroppedWrites :
    (∃ s t : State, step s = .next t ∧ s.ovr = false ∧ t.ovr = true) ∧ (∃ s t : State, step s = .next t ∧ s.pend ≠ .none ∧ s.inbox = [.regWrite 0 5#32] ∧ (0#4 : BitVec 4) ≠ 1) ∧
    (∃ s t : State, step s = .next t ∧ s.ovr = true ∧ t.ovr = false ∧ s.inbox = [.regWrite 1 8#32] ∧ (8#32).getLsbD 3 = true) :=
  ⟨⟨{ ready with pend := .mix, inbox := [.keyWrite 3#32 0xFF#8] }, _, rfl, by decide⟩,
    ⟨{ ready with pend := .mix, inbox := [.regWrite 0 5#32] }, _, rfl, by decide⟩,
    ⟨{ ready with ovr := true, inbox := [.regWrite 1 8#32] }, _, rfl, by decide⟩⟩
theorem witness_OperandRegistersAreTheHosts : ∀ idx ∈ [2#4, 3#4, 4#4], ∃ s t : State,
    step s = .next t ∧ (∀ rest, s.inbox ≠ .reset :: rest) ∧ (t.len ≠ s.len ∨ t.seed ≠ s.seed ∨ t.kaddr ≠ s.kaddr) := by
  intro idx h
  refine ⟨{ ready with inbox := [.regWrite idx 9#32] }, ?_⟩
  simp only [List.mem_cons, List.not_mem_nil, or_false] at h
  rcases h with rfl | rfl | rfl <;> exact ⟨_, rfl, by simp, by decide⟩

end Sys2Proof.Tests
end

section
/-!
The invariant of `Sys2Proof/Safety.lean` is kept by every step: one rule per update of the state, one lemma per kind of move.
-/
namespace Sys2Proof.Machine

/-! ## What the rules about the invariant need -/

theorem Memory.size_le (m : Memory) : m.size ≤ 2 ^ 32 := m.top.isLt

theorem State.lengthOk_iff (s : State) : s.lengthOk = true ↔ s.kaddr.toNat + s.len.toNat ≤ s.kmem.size := by
  simp [State.lengthOk]

theorem State.blockOk_iff (s : State) : s.blockOk = true ↔ s.active = true ∧ 12 < s.rem.toNat := by
  simp [State.blockOk]

theorem State.tailOk_iff (s : State) : s.tailOk = true ↔ s.active = true ∧ s.rem.toNat ≤ 12 := by
  simp [State.tailOk]

theorem State.pendOk_of_idle {s : State} (hp : s.pend = .none) : s.pendOk = true := by
  simp [State.pendOk, hp]

theorem State.wordsOk_setWord {s : State} (x : WordSel) (v : Word) (h : s.wordsOk = true) :
    (s.setWord x v).wordsOk = true := by
  simp only [State.wordsOk, State.av, State.bv, State.cv, Bool.and_eq_true] at h ⊢
  obtain ⟨⟨ha, hb⟩, hc⟩ := h
  cases x <;> simp [State.setWord, ha, hb, hc]

/-- What a BLOCK step does to the progress registers, where twelve bytes are left and they lie in the address range (R68). -/
theorem cursor_of_block {cur rem : Word} (hr : 12 < rem.toNat) (hin : cur.toNat + rem.toNat ≤ 2 ^ 32) :
    (cur + 12).toNat = cur.toNat + 12 ∧ (rem - 12).toNat + 12 = rem.toNat := by
  bv_omega

/-! ## Updates that keep the invariant -/

namespace State.Inv
variable {s : State}

/-- The model's own fields and OVR are free. -/
theorem host (h : s.Inv) (rest : List Event) (ans : Option Answer) (n : Nat) (o : Bool) :
    State.Inv { s with inbox := rest, answer := ans, freeReads := n, ovr := o } :=
  ⟨h.memory, h.session, h.inside, h.closed, h.busy, h.pending, h.error⟩

theorem inbox (h : s.Inv) (rest : List Event) : State.Inv { s with inbox := rest } :=
  h.host rest s.answer s.freeReads s.ovr

theorem hostRead (h : s.Inv) (idx : BitVec 4) : (hostRead idx s).Inv := by
  unfold Machine.hostRead
  split
  · exact h.host _ _ _ _
  · exact h.host _ _ _ _

theorem raiseError (h : s.Inv) {code : ECode} (hc : code ≠ .none) : (raiseError code s).Inv := by
  unfold Machine.raiseError
  split
  · exact h
  · exact ⟨h.memory, h.session, h.inside, h.closed, h.busy, h.pending, by simp [hc]⟩

/-- A STATUS write takes ERR and ECODE away together, and DONE only goes to 0. -/
theorem clearStatus (h : s.Inv) (v : Word) : (clearStatus v s).Inv where
  memory := h.memory
  session hs := ⟨(h.session hs).1, by simp [(h.session hs).2]⟩
  inside := h.inside
  closed := h.closed
  busy hb := by simp [h.busy hb]
  pending := h.pending
  error := by
    rw [clearStatus_err, clearStatus_ecode, h.error]
    cases v.getLsbD 2 <;> simp

/-- The operand registers are free while no check of a pending command rests on them. -/
theorem operands (h : s.Inv) (hp : s.pend = .none) (len seed kaddr : Word) :
    State.Inv { s with len := len, seed := seed, kaddr := kaddr } :=
  ⟨h.memory, h.session, h.inside, h.closed, h.busy, State.pendOk_of_idle hp, h.error⟩

theorem writeWord (h : s.Inv) (hp : s.pend = .none) (x : WordSel) (v : Word) : (writeWord x v s).Inv where
  memory := by simpa [Machine.writeWord] using h.memory
  session hs := ⟨State.wordsOk_setWord x v (h.session (by simpa [Machine.writeWord] using hs)).1, rfl⟩
  inside := by simpa [Machine.writeWord] using h.inside
  closed := by simpa [Machine.writeWord] using h.closed
  busy _ := rfl
  pending := State.pendOk_of_idle (by simpa [Machine.writeWord] using hp)
  error := by simpa [Machine.writeWord] using h.error

theorem keyWrite (h : s.Inv) (hp : s.pend = .none) (addr : Nat) (v : Byte) :
    State.Inv { s with kmem := s.kmem.write addr v } where
  memory := s.kmem.write_wf addr v h.memory
  session := h.session
  inside hs := by simpa using h.inside hs
  closed := h.closed
  busy := h.busy
  pending := State.pendOk_of_idle hp
  error := h.error

theorem resetInput (h : s.Inv) : (resetInput s).Inv where
  memory := h.memory
  session := by simp
  inside := by simp
  closed := by simp
  busy := by simp
  pending := State.pendOk_of_idle rfl
  error := by simp

/-- An accepted command's check is what the invariant says of it while it is pending. -/
theorem start (h : s.Inv) {p : Pend} (ok : (s.start p).pendOk = true) : (s.start p).Inv :=
  ⟨h.memory, fun hs => ⟨(h.session hs).1, rfl⟩, h.inside, h.closed, fun _ => rfl, ok, h.error⟩

/-- TAIL's acceptance leaves DONE, which is 0 since a session is open (R23, R24). -/
theorem acceptTail (h : s.Inv) (ok : s.tailOk = true) : State.Inv { s with pend := .tail } :=
  ⟨h.memory, h.session, h.inside, h.closed, fun _ => (h.session ((State.tailOk_iff s).1 ok).1).2, ok, h.error⟩

theorem done_of_pending (h : s.Inv) (hp : s.pend ≠ .none) : s.done = false := h.busy ((State.busy_iff s).2 hp)

/-- An INIT step opens a session on the key that R89 has checked. -/
theorem initBody (h : s.Inv) (hp : s.pend ≠ .none) (ok : s.lengthOk = true) {p : Pend} (hn : p = .none ∨ p = .hashBody) :
    State.Inv { initBody s with pend := p } where
  memory := h.memory
  session _ := ⟨rfl, h.done_of_pending hp⟩
  inside _ := (State.lengthOk_iff s).1 ok
  closed hs := by simp at hs
  busy _ := h.done_of_pending hp
  pending := by rcases hn with rfl | rfl <;> rfl
  error := h.error

/-- A BLOCK step moves CUR twelve bytes on, with twelve bytes fewer left. -/
theorem absorbBlock (h : s.Inv) (hs : s.active = true) (hr : 12 < s.rem.toNat) (w : Words) {p : Pend}
    (hn : p = .none ∨ p = .hashBody) : State.Inv { absorbBlock w s with pend := p } where
  memory := h.memory
  session _ := ⟨rfl, (h.session hs).2⟩
  inside _ := by
    have hin := h.inside hs
    obtain ⟨hc, hm⟩ := cursor_of_block hr (hin.trans s.kmem.size_le)
    simp only [absorbBlock_cur, absorbBlock_rem, absorbBlock_kmem]
    omega
  closed hf := by simp [hs] at hf
  busy _ := (h.session hs).2
  pending := by
    rcases hn with rfl | rfl
    · rfl
    · exact hs
  error := h.error

/-- A TAIL step closes the session with no byte left. -/
theorem absorbTail (h : s.Inv) (w : Words) : (absorbTail w s).finish.Inv where
  memory := h.memory
  session hs := by simp at hs
  inside hs := by simp at hs
  closed _ := rfl
  busy hb := by simp [State.busy] at hb
  pending := rfl
  error := h.error

/-- A step of the mixer family ends its command; it may change words and counters, and takes no word's value away. -/
theorem mixerStep (h : s.Inv) (a b c : Option Word) (nmix nfin : Word)
    (hw : s.wordsOk = true → (a.isSome && b.isSome && c.isSome) = true) :
    State.Inv { s with a := a, b := b, c := c, nmix := nmix, nfin := nfin, pend := .none } :=
  ⟨h.memory, fun hs => ⟨hw (h.session hs).1, (h.session hs).2⟩, h.inside, h.closed, fun hb => by simp [State.busy] at hb,
    rfl, h.error⟩

theorem rotlStep (h : s.Inv) (x : WordSel) (v : Word) : (s.setWord x v).finish.Inv := by
  have hw := fun ok : s.wordsOk = true => State.wordsOk_setWord x v ok
  cases x <;> exact h.mixerStep _ _ _ s.nmix s.nfin hw

end State.Inv

/-! ## Moves that keep the invariant -/

theorem AcceptMove.inv {s t : State} {i : Instr} (hm : AcceptMove s i t) (h : s.Inv) : t.Inv := by
  cases hm with
  | nop => exact h
  | init ok => exact h.start ok
  | block ok => exact h.start ok
  | tail ok => exact h.acceptTail ok
  | hash ok => exact h.start ok
  | mix ok => exact h.start ok
  | final ok => exact h.start ok
  | rotl rs sh x sel ok => exact h.start (by cases x <;> exact ok)
  | reject _ code hc => exact h.raiseError hc

theorem EngineMove.inv {s t : State} (hm : EngineMove s t) (h : s.Inv) : t.Inv := by
  have hok := h.pending
  cases hm with
  | init hp => exact h.initBody (by simp [hp]) (by simpa [State.pendOk, hp] using hok) (.inl rfl)
  | hashInit hp => exact h.initBody (by simp [hp]) (by simpa [State.pendOk, hp] using hok) (.inr rfl)
  | block hp w hw hk =>
    obtain ⟨hs, hr⟩ := (State.blockOk_iff s).1 (by simpa [State.pendOk, hp] using hok)
    exact h.absorbBlock hs hr w (.inl rfl)
  | hashBlock hp hr w hw hk =>
    have hs : s.active = true := by simpa [State.pendOk, hp] using hok
    exact h.absorbBlock hs hr w (.inr hp)
  | tail hp w hw hk => exact h.absorbTail w
  | hashTail hp hr w hw hk => exact h.absorbTail w
  | mix hp w hw => exact h.mixerStep _ _ _ _ _ fun _ => rfl
  | final hp w hw => exact h.mixerStep _ _ _ _ _ fun _ => rfl
  | rotl x sh hp w hw => exact h.rotlStep x _

theorem StepMove.inv {s t : State} (hm : StepMove s t) (h : s.Inv) : t.Inv := by
  cases hm with
  | idle rest => exact h.inbox rest
  | engine rest _ _ _ _ hm => exact hm.inv (h.inbox rest)
  | read idx rest => exact (h.inbox rest).hostRead idx
  | dropWrite _ _ rest => exact h.host rest s.answer s.freeReads true
  | status _ v rest => exact (h.inbox rest).clearStatus v
  | illegal _ _ _ rest => exact (h.inbox rest).raiseError (by decide)
  | accept _ _ _ rest _ _ _ _ _ hm => exact hm.inv (h.inbox rest)
  | len _ v rest _ hp => exact (h.inbox rest).operands hp v s.seed s.kaddr
  | seed _ v rest _ hp => exact (h.inbox rest).operands hp s.len v s.kaddr
  | kaddr _ v rest _ hp => exact (h.inbox rest).operands hp s.len s.seed v
  | word _ x v rest _ hp => exact (h.inbox rest).writeWord hp x v
  | ignored _ _ rest => exact h.inbox rest
  | dropKey _ _ rest => exact h.host rest s.answer s.freeReads true
  | key addr v rest _ hp => exact (h.inbox rest).keyWrite hp addr.toNat v
  | reset rest => exact (h.inbox rest).resetInput
  | waitOn rest => exact (h.hostRead _).inbox _
  | waitDone rest => exact (h.hostRead _).inbox rest

/-- Settles O3, by cases on the moves of a step: each is one update, or one after another, that keeps the invariant. -/
theorem everyStepKeepsTheInvariant : Obligations.EveryStepKeepsTheInvariant :=
  fun _ _ h hstep => (step_move hstep).inv h

end Sys2Proof.Machine
end


section
/-!
What a step does to each field, said once as equations: the effect of the engine's turn by the kind of step that is due, and what an event of the
host leaves. The rules over all steps of 10_state.md are read off from them.
-/
namespace Sys2Proof.Machine

/-! ## The kinds of engine step -/

/-- The step due is an INIT step, of INIT or of HASH. -/
@[simp] abbrev State.initStep (s : State) : Prop := s.pend = .init ∨ s.pend = .hashInit

/-- The step due is a BLOCK step, of BLOCK or of HASH. -/
@[simp] abbrev State.blockStep (s : State) : Prop := s.pend = .block ∨ s.pend = .hashBody ∧ 12 < s.rem.toNat

/-- The step due is a TAIL step, of TAIL or of HASH. -/
@[simp] abbrev State.tailStep (s : State) : Prop := s.pend = .tail ∨ s.pend = .hashBody ∧ s.rem.toNat ≤ 12

/-- The step due applies the Mix Round. -/
@[simp] abbrev State.mixRound (s : State) : Prop := s.pend = .mix ∨ s.blockStep

/-- The step due applies the Finalization Round. -/
@[simp] abbrev State.finalRound (s : State) : Prop := s.pend = .final ∨ s.tailStep ∧ 1 ≤ s.rem.toNat

/-- The step due leaves its command pending: the steps of HASH before its TAIL step. -/
@[simp] abbrev State.staysPending (s : State) : Prop := s.pend = .hashInit ∨ s.pend = .hashBody ∧ 12 < s.rem.toNat

/-- What the engine's turn does to the fields that the rules over all steps speak of, by the kind of step that is due. With nothing pending no
kind is due, and the fields stay. -/
structure EngineEffect (s t : State) : Prop where
  len : t.len = s.len
  seed : t.seed = s.seed
  kaddr : t.kaddr = s.kaddr
  rem : t.rem = if s.initStep then s.len else if s.blockStep then s.rem - 12 else if s.tailStep then 0 else s.rem
  cur : t.cur = if s.initStep then s.kaddr else if s.blockStep then s.cur + 12 else if s.tailStep then s.cur + s.rem else s.cur
  nmix : t.nmix = if s.initStep then 0 else if s.mixRound then s.nmix + 1 else s.nmix
  nfin : t.nfin = if s.initStep then 0 else if s.finalRound then s.nfin + 1 else s.nfin
  active : t.active = if s.initStep then true else if s.tailStep then false else s.active
  done : t.done = if s.tailStep then true else s.done
  pend : t.pend = if s.staysPending then .hashBody else .none
  word : ∀ x, (t.word x).isSome = if s.initStep then true else (s.word x).isSome

theorem State.word_isSome {s : State} (h : s.wordsOk = true) (x : WordSel) : (s.word x).isSome = true := by
  simp only [State.wordsOk, State.av, State.bv, State.cv, Bool.and_eq_true] at h
  obtain ⟨⟨ha, hb⟩, hc⟩ := h
  cases x
  · exact ha
  · exact hb
  · exact hc

@[simp] theorem State.finish_word (s : State) (x : WordSel) : s.finish.word x = s.word x := by
  cases x <;> rfl

/-- An INIT step gives every word a value; no other step gives one or takes one away. -/
theorem EngineMove.word_isSome {s t : State} (hm : EngineMove s t) (x : WordSel) :
    (t.word x).isSome = if s.initStep then true else (s.word x).isSome := by
  cases hm with
  | init hp => rw [if_pos (.inl hp)]; exact State.word_isSome rfl x
  | hashInit hp => rw [if_pos (.inr hp)]; exact State.word_isSome rfl x
  | rotl y sh hp w hw => by_cases hxy : x = y <;> simp [hp, hxy, hw]
  | block _ w hw | hashBlock _ _ w hw | tail _ w hw | hashTail _ _ w hw | mix _ w hw | final _ w hw =>
    rw [State.word_isSome ((State.wordsOk_iff s).2 ⟨w, hw⟩), ite_self]
    exact State.word_isSome rfl x

theorem EngineMove.effect {s t : State} (hm : EngineMove s t) : EngineEffect s t := by
  have hword := hm.word_isSome
  cases hm with
  | init hp | hashInit hp | block hp | tail hp | mix hp | final hp | rotl _ _ hp =>
    apply EngineEffect.mk (word := hword) <;> simp [hp]
  | hashBlock hp hr => apply EngineEffect.mk (word := hword) <;> simp [hp, hr, Nat.not_le.2 hr]
  | hashTail hp hr => apply EngineEffect.mk (word := hword) <;> simp [hp, hr, Nat.not_lt.2 hr]

/-! ## Steps -/

theorem EngineEffect.of_inbox {s t : State} {rest : List Event} (h : EngineEffect { s with inbox := rest } t) : EngineEffect s t :=
  ⟨h.len, h.seed, h.kaddr, h.rem, h.cur, h.nmix, h.nfin, h.active, h.done, h.pend, h.word⟩

theorem EngineEffect.idle {s : State} (hp : s.pend = .none) : EngineEffect s s := by
  constructor <;> simp [hp]

/-- The engine's turn needs no event of the host. -/
theorem step_engineNext {s : State} (he : s.engineNext = true) : step s = engineTurn { s with inbox := s.inbox.tail } := by
  obtain ⟨rest, hi⟩ | hi : (∃ rest, s.inbox = .engine :: rest) ∨ s.inbox = [] := by
    unfold State.engineNext at he
    split at he <;> simp_all
  · rw [step_cons hi, hi]; rfl
  · rw [step_nil hi, hi, List.tail_nil, ← hi]

theorem step_engineEffect {s t : State} (h : step s = .next t) (he : s.engineNext = true) : EngineEffect s t := by
  rw [step_engineNext he] at h
  rcases engineTurn_next h with ⟨hp, rfl⟩ | ⟨-, hm⟩
  · exact (EngineEffect.idle hp).of_inbox
  · exact hm.effect.of_inbox

theorem step_reset {s t : State} {rest : List Event} (h : step s = .next t) (hi : s.inbox = .reset :: rest) :
    t = resetInput { s with inbox := rest } := by
  rw [step_cons hi] at h
  injection h with h
  exact h.symm

/-- What acceptance can change (R80). -/
theorem AcceptMove.frame {s t : State} {i : Instr} (hm : AcceptMove s i t) :
    ∃ d p e c, t = { s with done := d, pend := p, err := e, ecode := c } := by
  cases hm with
  | nop => exact ⟨s.done, s.pend, s.err, s.ecode, rfl⟩
  | tail => exact ⟨s.done, .tail, s.err, s.ecode, rfl⟩
  | init | block | hash | mix | final | rotl => exact ⟨false, _, s.err, s.ecode, rfl⟩
  | reject _ code =>
    refine ⟨s.done, s.pend, true, if s.err then s.ecode else code, ?_⟩
    unfold raiseError
    split
    · cases s; simp_all
    · simp_all

/-- The fields that events of the host leave as they are: the progress registers, the counters and ACTIVE. -/
structure SameProgress (s t : State) : Prop where
  rem : t.rem = s.rem
  cur : t.cur = s.cur
  nmix : t.nmix = s.nmix
  nfin : t.nfin = s.nfin
  active : t.active = s.active

/-- Every step is the engine's turn, a reset, or an event of the host, which changes no progress. -/
theorem step_progress {s t : State} (h : step s = .next t) :
    s.engineNext = true ∧ EngineEffect s t ∨ (∃ rest, s.inbox = .reset :: rest) ∨ SameProgress s t := by
  cases step_move h with
  | idle _ he | engine _ _ he => exact .inl ⟨he, step_engineEffect h he⟩
  | reset rest hi => exact .inr (.inl ⟨rest, hi⟩)
  | accept _ _ _ _ _ _ _ _ _ hm =>
    obtain ⟨d, p, e, c, rfl⟩ := hm.frame
    exact .inr (.inr ⟨rfl, rfl, rfl, rfl, rfl⟩)
  | _ => exact .inr (.inr (by constructor <;> simp [writeWord]))

/-! ## The session, the counters and the cursor -/

/-- Settles O52, from what the engine's turn, reset and the host's events do to ACTIVE. -/
theorem activeFollowsTheSession : Obligations.ActiveFollowsTheSession := by
  intro s t h
  refine ⟨fun h0 h1 => ?_, fun h0 h1 => ?_, fun he hk => ?_, fun he hk => ?_, fun rest hi => ?_⟩
  · rcases step_progress h with ⟨he, e⟩ | ⟨rest, hi⟩ | e
    · refine ⟨he, ?_⟩
      by_contra hk
      simp [e.active, hk, h0] at h1
    · simp [step_reset h hi] at h1
    · simp [e.active, h0] at h1
  · rcases step_progress h with ⟨he, e⟩ | hr | e
    · refine .inr ⟨he, ?_⟩
      by_contra hk
      simp [e.active, hk, h0] at h1
    · exact .inl hr
    · simp [e.active, h0] at h1
  · rw [(step_engineEffect h he).active, if_pos hk]
  · have hn : ¬ s.initStep := by rcases hk with hp | ⟨hp, -⟩ <;> simp [hp]
    rw [(step_engineEffect h he).active, if_neg hn, if_pos hk]
  · rw [step_reset h hi]; rfl

theorem State.not_initStep_of_block {s : State} (hk : s.blockStep) : ¬ s.initStep := by
  rcases hk with hp | ⟨hp, -⟩ <;> simp [hp]

theorem State.not_initStep_of_tail {s : State} (hk : s.tailStep) : ¬ s.initStep := by
  rcases hk with hp | ⟨hp, -⟩ <;> simp [hp]

theorem State.not_blockStep_of_tail {s : State} (hk : s.tailStep) : ¬ s.blockStep := by
  rcases hk with hp | ⟨hp, hr⟩
  · simp [hp]
  · simp [hp, hr]

/-- No step applies both rounds. -/
theorem State.not_mixRound_of_finalRound {s : State} (hk : s.finalRound) : ¬ s.mixRound := by
  rcases hk with hp | ⟨hk, -⟩
  · simp [hp]
  · rintro (hp | hb)
    · simp [hp] at hk
    · exact State.not_blockStep_of_tail hk hb

theorem State.not_initStep_of_mixRound {s : State} (hk : s.mixRound) : ¬ s.initStep := by
  rcases hk with hp | hb
  · simp [hp]
  · exact State.not_initStep_of_block hb

theorem State.not_initStep_of_finalRound {s : State} (hk : s.finalRound) : ¬ s.initStep := by
  rcases hk with hp | ⟨ht, -⟩
  · simp [hp]
  · exact State.not_initStep_of_tail ht

/-- Settles O54, from the equations of the two counters at the engine's turn; the kinds of step exclude each other. -/
theorem countersCountRounds : Obligations.CountersCountRounds := by
  intro s t h
  refine ⟨fun he hk => ?_, fun he hk => ?_, ?_, fun hne => ?_, fun hne => ?_⟩
  · have e := step_engineEffect h he
    have hn := State.not_initStep_of_mixRound hk
    exact ⟨by rw [e.nmix, if_neg hn, if_pos hk],
      by rw [e.nfin, if_neg hn, if_neg fun hf => State.not_mixRound_of_finalRound hf hk]⟩
  · have e := step_engineEffect h he
    have hn := State.not_initStep_of_finalRound hk
    exact ⟨by rw [e.nmix, if_neg hn, if_neg (State.not_mixRound_of_finalRound hk)], by rw [e.nfin, if_neg hn, if_pos hk]⟩
  · rintro (⟨he, hk⟩ | ⟨rest, hi⟩)
    · have e := step_engineEffect h he
      exact ⟨by rw [e.nmix, if_pos hk], by rw [e.nfin, if_pos hk]⟩
    · rw [step_reset h hi]
      exact ⟨rfl, rfl⟩
  · rcases step_progress h with ⟨he, e⟩ | hr | e
    · by_cases hn : s.initStep
      · exact .inr (.inl ⟨he, hn⟩)
      · refine .inl ⟨he, ?_⟩
        by_contra hk
        exact hne (by rw [e.nmix, if_neg hn, if_neg hk])
    · exact .inr (.inr hr)
    · exact absurd e.nmix hne
  · rcases step_progress h with ⟨he, e⟩ | hr | e
    · by_cases hn : s.initStep
      · exact .inr (.inl ⟨he, hn⟩)
      · refine .inl ⟨he, ?_⟩
        by_contra hk
        exact hne (by rw [e.nfin, if_neg hn, if_neg hk])
    · exact .inr (.inr hr)
    · exact absurd e.nfin hne

/-- A BLOCK step is due only in a session with more than twelve bytes left (R90, R70). -/
theorem State.Inv.blockStep_session {s : State} (h : s.Inv) (hk : s.blockStep) : s.active = true ∧ 12 < s.rem.toNat := by
  have hok := h.pending
  rcases hk with hp | ⟨hp, hr⟩
  · exact (State.blockOk_iff s).1 (by simpa [State.pendOk, hp] using hok)
  · exact ⟨by simpa [State.pendOk, hp] using hok, hr⟩

/-- A TAIL step is due only in a session (R90, R70). -/
theorem State.Inv.tailStep_session {s : State} (h : s.Inv) (hk : s.tailStep) : s.active = true := by
  have hok := h.pending
  rcases hk with hp | ⟨hp, -⟩
  · exact ((State.tailOk_iff s).1 (by simpa [State.pendOk, hp] using hok)).1
  · simpa [State.pendOk, hp] using hok

/-- A BLOCK step keeps the session and moves the cursor twelve bytes on without a wrap. -/
theorem EngineEffect.block_cursor {s t : State} (e : EngineEffect s t) (h : s.Inv) (hk : s.blockStep) :
    t.active = true ∧ t.cur.toNat = s.cur.toNat + 12 ∧ t.rem.toNat + 12 = s.rem.toNat := by
  obtain ⟨hs, hr⟩ := h.blockStep_session hk
  have hn := State.not_initStep_of_block hk
  have ht : ¬ s.tailStep := fun ht => State.not_blockStep_of_tail ht hk
  rw [e.active, e.cur, e.rem, if_neg hn, if_neg hn, if_neg hn, if_neg ht, if_pos hk, if_pos hk]
  exact ⟨hs, cursor_of_block hr ((h.inside hs).trans s.kmem.size_le)⟩

/-- CUR + REM reaches 2^32 only at the end of a key memory of 2^32 bytes, where the sum wraps to 0. -/
theorem cursor_wraps {cur rem : Word} {size : Nat} (hin : cur.toNat + rem.toNat ≤ size) (hsize : size ≤ 2 ^ 32)
    (hne : (cur + rem).toNat ≠ cur.toNat + rem.toNat) :
    size = 2 ^ 32 ∧ cur.toNat + rem.toNat = 2 ^ 32 ∧ cur + rem = 0 := by
  have hsum : cur.toNat + rem.toNat = 2 ^ 32 := by
    rw [BitVec.toNat_add] at hne
    omega
  refine ⟨by omega, hsum, BitVec.eq_of_toNat_eq ?_⟩
  rw [BitVec.toNat_add, hsum]
  rfl

/-- Settles O55, from the equations of CUR and REM at the engine's turn; the invariant keeps the key's unread bytes inside the key memory. -/
theorem cursorStaysOnTheKey : Obligations.CursorStaysOnTheKey := by
  intro s t hinv h
  refine ⟨fun he hk => ?_, fun hs ht hk => ?_, fun he hk => (step_engineEffect h he).block_cursor hinv hk, fun he hk => ?_⟩
  · have e := step_engineEffect h he
    exact ⟨by rw [e.active, if_pos hk], by rw [e.cur, if_pos hk], by rw [e.rem, if_pos hk]⟩
  · rcases step_progress h with ⟨he, e⟩ | ⟨rest, hi⟩ | e
    · have hn : ¬ s.initStep := fun hn => hk ⟨he, hn⟩
      have hnt : ¬ s.tailStep := fun htl => by simp [e.active, hn, htl] at ht
      by_cases hb : s.blockStep
      · obtain ⟨-, hc, hr⟩ := e.block_cursor hinv hb
        omega
      · rw [e.cur, e.rem, if_neg hn, if_neg hn, if_neg hb, if_neg hb, if_neg hnt, if_neg hnt]
    · simp [step_reset h hi] at ht
    · rw [e.cur, e.rem]
  · have e := step_engineEffect h he
    have hn := State.not_initStep_of_tail hk
    have hb := State.not_blockStep_of_tail hk
    have hcur : t.cur = s.cur + s.rem := by rw [e.cur, if_neg hn, if_neg hb, if_pos hk]
    have hrem : t.rem = 0 := by rw [e.rem, if_neg hn, if_neg hb, if_pos hk]
    refine ⟨hcur, hrem, fun hne => ?_⟩
    rw [hcur] at hne ⊢
    exact cursor_wraps (hinv.inside (hinv.tailStep_session hk)) s.kmem.size_le hne

end Sys2Proof.Machine
end


section
/-!
The host's side of 10_state.md: which events give a word a value, change DONE and BUSY, and write an operand register; what a STATUS write clears, how
STATUS reads, and the read of a word without a value.
-/
namespace Sys2Proof.Machine

/-! ## Words and operand registers -/

/-- The register index of a state word (R13). -/
def WordSel.index : WordSel → BitVec 4
  | .A => Reg.a.index
  | .B => Reg.b.index
  | .C => Reg.c.index

/-- The map from register indices to words, as `StepMove.word` has it. -/
theorem WordSel.index_eq {idx : BitVec 4} {x : WordSel}
    (hr : Reg.ofIndex idx = .a ∧ x = .A ∨ Reg.ofIndex idx = .b ∧ x = .B ∨ Reg.ofIndex idx = .c ∧ x = .C) : idx = x.index := by
  rcases hr with ⟨hr, rfl⟩ | ⟨hr, rfl⟩ | ⟨hr, rfl⟩ <;> exact (Reg.ofIndex_eq_iff _ _).1 hr

theorem writeWord_word (s : State) (x y : WordSel) (v : Word) :
    (writeWord x v s).word y = if y = x then some v else s.word y := by
  rw [← State.setWord_word]
  cases y <;> rfl

@[simp] theorem hostRead_word (idx : BitVec 4) (s : State) (x : WordSel) : (hostRead idx s).word x = s.word x := by
  cases x <;> simp [State.word]

@[simp] theorem raiseError_word (code : ECode) (s : State) (x : WordSel) : (raiseError code s).word x = s.word x := by
  cases x <;> simp [State.word]

/-- The host gives a word a value by a write of that word alone (R15, R26). -/
theorem step_word {s t : State} (h : step s = .next t) (x : WordSel) :
    s.engineNext = true ∧ EngineEffect s t ∨ (∃ rest, s.inbox = .reset :: rest) ∨ t.word x = s.word x ∨
      ∃ v rest, s.inbox = .regWrite x.index v :: rest ∧ s.pend = .none ∧ t.word x = some v := by
  cases step_move h with
  | idle _ he | engine _ _ he => exact .inl ⟨he, step_engineEffect h he⟩
  | reset rest hi => exact .inr (.inl ⟨rest, hi⟩)
  | accept _ _ _ _ _ _ _ _ _ hm =>
    obtain ⟨d, p, e, c, rfl⟩ := hm.frame
    exact .inr (.inr (.inl rfl))
  | word idx y v rest hi hp hr =>
    obtain rfl := WordSel.index_eq hr
    by_cases hxy : x = y
    · subst hxy
      exact .inr (.inr (.inr ⟨v, rest, hi, hp, by simp [writeWord_word]⟩))
    · exact .inr (.inr (.inl (by rw [writeWord_word, if_neg hxy]; rfl)))
  | read idx => exact .inr (.inr (.inl (hostRead_word idx _ x)))
  | waitOn | waitDone => exact .inr (.inr (.inl (hostRead_word Reg.status.index s x)))
  | illegal => exact .inr (.inr (.inl (raiseError_word _ _ x)))
  | _ => exact .inr (.inr (.inl rfl))

theorem step_word_lost {s t : State} (h : step s = .next t) (x : WordSel) (hs : (s.word x).isSome = true)
    (ht : (t.word x).isSome = false) : ∃ rest, s.inbox = .reset :: rest := by
  rcases step_word h x with ⟨-, e⟩ | hr | he | ⟨v, rest, -, -, hv⟩
  · simp [e.word, hs] at ht
  · exact hr
  · simp [he, hs] at ht
  · simp [hv] at ht

theorem step_word_given {s t : State} (h : step s = .next t) (x : WordSel) (hs : (s.word x).isSome = false)
    (ht : (t.word x).isSome = true) :
    s.engineNext = true ∧ s.initStep ∨ ∃ v rest, s.inbox = .regWrite x.index v :: rest ∧ s.pend = .none := by
  rcases step_word h x with ⟨he, e⟩ | ⟨rest, hi⟩ | he | ⟨v, rest, hi, hp, -⟩
  · refine .inl ⟨he, ?_⟩
    by_contra hn
    simp [e.word, hn, hs] at ht
  · rw [step_reset h hi] at ht
    cases x <;> simp [State.word] at ht
  · simp [he, hs] at ht
  · exact .inr ⟨v, rest, hi, hp⟩

/-- Settles O53, word by word. -/
theorem validBitsFollowTheWords : Obligations.ValidBitsFollowTheWords := fun _ _ h =>
  ⟨step_word_lost h .A, step_word_lost h .B, step_word_lost h .C, step_word_given h .A, step_word_given h .B, step_word_given h .C⟩

/-- The three writes that change an operand register; all other steps but reset leave the three (R16, R17, R18). -/
theorem step_operands {s t : State} (h : step s = .next t) :
    (∃ rest, s.inbox = .reset :: rest) ∨
    (∃ v rest, s.inbox = .regWrite 2 v :: rest ∧ s.pend = .none ∧ t = { s with inbox := rest, len := v }) ∨
    (∃ v rest, s.inbox = .regWrite 3 v :: rest ∧ s.pend = .none ∧ t = { s with inbox := rest, seed := v }) ∨
    (∃ v rest, s.inbox = .regWrite 4 v :: rest ∧ s.pend = .none ∧ t = { s with inbox := rest, kaddr := v }) ∨
    (t.len = s.len ∧ t.seed = s.seed ∧ t.kaddr = s.kaddr) := by
  cases step_move h with
  | reset rest hi => exact .inl ⟨rest, hi⟩
  | len idx v rest hi hp hr =>
    obtain rfl := (Reg.ofIndex_eq_iff _ _).1 hr
    exact .inr (.inl ⟨v, rest, hi, hp, rfl⟩)
  | seed idx v rest hi hp hr =>
    obtain rfl := (Reg.ofIndex_eq_iff _ _).1 hr
    exact .inr (.inr (.inl ⟨v, rest, hi, hp, rfl⟩))
  | kaddr idx v rest hi hp hr =>
    obtain rfl := (Reg.ofIndex_eq_iff _ _).1 hr
    exact .inr (.inr (.inr (.inl ⟨v, rest, hi, hp, rfl⟩)))
  | engine _ _ he =>
    have e := step_engineEffect h he
    exact .inr (.inr (.inr (.inr ⟨e.len, e.seed, e.kaddr⟩)))
  | accept _ _ _ _ _ _ _ _ _ hm =>
    obtain ⟨d, p, e, c, rfl⟩ := hm.frame
    exact .inr (.inr (.inr (.inr ⟨rfl, rfl, rfl⟩)))
  | _ => exact .inr (.inr (.inr (.inr (by simp [writeWord]))))

/-- Settles O60, from the three writes that change an operand register. -/
theorem operandRegistersAreTheHosts : Obligations.OperandRegistersAreTheHosts := by
  intro s t h hreset
  rcases step_operands h with ⟨rest, hi⟩ | ⟨v, rest, hi, hp, rfl⟩ | ⟨v, rest, hi, hp, rfl⟩ | ⟨v, rest, hi, hp, rfl⟩ | ⟨hl, hs, hk⟩
  · exact absurd hi (hreset rest)
  · exact ⟨fun _ => ⟨rest, hi, hp⟩, fun hne => absurd rfl hne, fun hne => absurd rfl hne⟩
  · exact ⟨fun hne => absurd rfl hne, fun _ => ⟨rest, hi, hp⟩, fun hne => absurd rfl hne⟩
  · exact ⟨fun hne => absurd rfl hne, fun hne => absurd rfl hne, fun _ => ⟨rest, hi, hp⟩⟩
  · exact ⟨fun hne => absurd hl hne, fun hne => absurd hs hne, fun hne => absurd hk hne⟩

/-! ## DONE -/

/-- Acceptance clears DONE only where a command other than TAIL and NOP starts. -/
theorem AcceptMove.done {s t : State} {i : Instr} (hm : AcceptMove s i t) :
    t.done = s.done ∨ t.done = false ∧ i ≠ .tail ∧ i ≠ .nop ∧ t.pend ≠ .none := by
  cases hm with
  | nop | tail => exact .inl rfl
  | reject _ code => exact .inl (raiseError_done code s)
  | init | block | hash | mix | final | rotl => exact .inr ⟨rfl, by simp, by simp, by simp⟩

/-- What can become of DONE outside the engine's turn: it stays, or is cleared on one of the occasions of R24. -/
theorem step_done {s t : State} (h : step s = .next t) :
    s.engineNext = true ∧ EngineEffect s t ∨ t.done = s.done ∨ t.done = false ∧
      ((∃ rest, s.inbox = .reset :: rest) ∨
      (∃ v rest, s.inbox = .regWrite 1 v :: rest ∧ v.getLsbD 1 = true) ∨
      (∃ idx v rest, s.inbox = .regWrite idx v :: rest ∧ s.pend = .none ∧ (idx = 5 ∨ idx = 6 ∨ idx = 7)) ∨
      (∃ w rest i, s.inbox = .regWrite 0 w :: rest ∧ s.pend = .none ∧ decode w = .command i ∧ i ≠ .tail ∧ i ≠ .nop ∧
        t.pend ≠ .none)) := by
  cases step_move h with
  | idle _ he | engine _ _ he => exact .inl ⟨he, step_engineEffect h he⟩
  | reset rest hi => exact .inr (.inr ⟨rfl, .inl ⟨rest, hi⟩⟩)
  | status idx v rest hi hr =>
    obtain rfl := (Reg.ofIndex_eq_iff _ _).1 hr
    cases hv : v.getLsbD 1 with
    | false => exact .inr (.inl (by rw [clearStatus_done, hv, Bool.not_false, Bool.and_true]))
    | true => exact .inr (.inr ⟨by rw [clearStatus_done, hv, Bool.not_true, Bool.and_false], .inr (.inl ⟨v, rest, hi, hv⟩)⟩)
  | word idx x v rest hi hp hr =>
    obtain rfl := WordSel.index_eq hr
    exact .inr (.inr ⟨rfl, .inr (.inr (.inl ⟨_, v, rest, hi, hp, by cases x <;> decide⟩))⟩)
  | accept idx w i rest _ hi hr hp hd hm =>
    obtain rfl := (Reg.ofIndex_eq_iff _ _).1 hr
    rcases hm.done with hs | ⟨hf, hit, hin, ht⟩
    · exact .inr (.inl hs)
    · exact .inr (.inr ⟨hf, .inr (.inr (.inr ⟨w, rest, i, hi, hp, hd, hit, hin, ht⟩))⟩)
  | _ => exact .inr (.inl (by simp))

/-- Settles O51, from what the engine's turn does to DONE and from the occasions on which an event clears it. -/
theorem doneIsSetOnlyByTheTailStep : Obligations.DoneIsSetOnlyByTheTailStep := by
  intro s t h
  refine ⟨fun h0 h1 => ?_, fun h0 h1 => ?_⟩
  · rcases step_done h with ⟨he, e⟩ | hs | ⟨hf, -⟩
    · have hk : s.tailStep := by
        by_contra hk
        simp [e.done, hk, h0] at h1
      have hl : ¬ s.staysPending := by
        rcases hk with hp | ⟨hp, hr⟩ <;> simp [*]
      exact ⟨he, hk, by rw [e.pend, if_neg hl]⟩
    · simp [hs, h0] at h1
    · simp [hf] at h1
  · rcases step_done h with ⟨-, e⟩ | hs | ⟨-, ho⟩
    · simp [e.done, h0] at h1
    · simp [hs, h0] at h1
    · exact ho

/-! ## BUSY -/

theorem AcceptMove.pend_of_nop {s t : State} (hm : AcceptMove s .nop t) : t.pend = s.pend := by
  cases hm with
  | nop => rfl
  | reject _ code => exact raiseError_pend code s

/-- R80: a CMD write with nothing pending runs the command that its word decodes to. -/
theorem step_command {s : State} {w : Word} {i : Instr} {rest : List Event} (hi : s.inbox = .regWrite Reg.cmd.index w :: rest)
    (hp : s.pend = .none) (hd : decode w = .command i) : step s = exec i { s with inbox := rest } := by
  rw [step_cons hi]
  simp [handle, hostWrite, State.busy, hp, writeIdle, accept, hd]

/-- PEND changes at the engine's turn, at reset, and where a command other than NOP is accepted. -/
theorem step_pend {s t : State} (h : step s = .next t) :
    s.engineNext = true ∧ EngineEffect s t ∨ (∃ rest, s.inbox = .reset :: rest) ∨ t.pend = s.pend ∨
      s.pend = .none ∧ ∃ w rest i, s.inbox = .regWrite 0 w :: rest ∧ decode w = .command i ∧ i ≠ .nop ∧
        exec i { s with inbox := rest } = .next t := by
  cases step_move h with
  | idle _ he | engine _ _ he => exact .inl ⟨he, step_engineEffect h he⟩
  | reset rest hi => exact .inr (.inl ⟨rest, hi⟩)
  | accept idx w i rest _ hi hr hp hd hm =>
    obtain rfl := (Reg.ofIndex_eq_iff _ _).1 hr
    by_cases hn : i = .nop
    · subst hn
      exact .inr (.inr (.inl hm.pend_of_nop))
    · exact .inr (.inr (.inr ⟨hp, w, rest, i, hi, hd, hn, step_command hi hp hd ▸ h⟩))
  | _ => exact .inr (.inr (.inl (by simp [writeWord])))

/-- Settles O57, from the steps that change PEND; the engine's turn leaves it exactly at the steps of HASH before the last. -/
theorem busyFollowsThePendingCommand : Obligations.BusyFollowsThePendingCommand := by
  intro s t h
  refine ⟨fun h0 h1 => ?_, fun h0 h1 => ?_, fun _ he hn hb => ?_⟩
  · have hs : s.pend = .none := by simpa [State.busy] using h0
    have ht := (State.busy_iff t).1 h1
    rcases step_pend h with ⟨-, e⟩ | ⟨rest, hi⟩ | hp | ⟨-, hc⟩
    · simp [e.pend, hs] at ht
    · simp [step_reset h hi] at ht
    · exact absurd (hp.trans hs) ht
    · exact hc
  · have hs := (State.busy_iff s).1 h0
    have ht : t.pend = .none := by simpa [State.busy] using h1
    rcases step_pend h with ⟨he, e⟩ | hr | hp | ⟨hp, -⟩
    · have hl : ¬ s.staysPending := fun hl => by simp [e.pend, hl] at ht
      exact .inr ⟨he, fun hp => hl (.inl hp), fun hp => Nat.not_lt.1 fun hr => hl (.inr ⟨hp, hr⟩)⟩
    · exact .inl hr
    · exact absurd (hp.symm.trans ht) hs
    · exact absurd hp hs
  · have hl : ¬ s.staysPending := by
      rintro (hp | ⟨hp, hr⟩)
      · exact hn hp
      · exact absurd hr (Nat.not_lt.2 (hb hp))
    simp only [State.busy, (step_engineEffect h he).pend, if_neg hl]
    rfl

/-! ## STATUS and reads -/

/-- Settles O16: the write is carried out whatever is pending, and each flag it names is cleared by its own bit. -/
theorem statusWriteOnlyClears : Obligations.StatusWriteOnlyClears := by
  intro s v rest hi
  have hstep : step s = .next (clearStatus v { s with inbox := rest }) := by
    rw [step_cons hi]
    simp [handle, hostWrite, writeIdle]
  have hflag : ∀ flag bit : Bool, (flag && !bit) = if bit then false else flag := by decide
  rw [hstep, clearStatus, hflag, hflag, hflag]

theorem bit_shiftLeft_getLsbD (b : Bool) (k i : Nat) (hi : i < 32) : (bit b <<< k).getLsbD i = (decide (i = k) && b) := by
  have hbit : ∀ j, (bit b).getLsbD j = (decide (j = 0) && b) := fun j => by cases b <;> simp [bit]
  rw [BitVec.getLsbD_shiftLeft, hbit]
  rcases Nat.lt_trichotomy i k with hlt | rfl | hgt
  · simp [hlt, Nat.ne_of_lt hlt]
  · simp [hi]
  · simp [Nat.ne_of_gt hgt, Nat.sub_ne_zero_of_lt hgt]

/-- STATUS bit by bit: a flag stands at its own place, ECODE at 7:4 (R22). -/
theorem State.status_getLsbD (s : State) {i : Nat} (hi : i < 32) :
    s.status.getLsbD i =
      (decide (i = 0) && s.busy || decide (i = 1) && s.done || decide (i = 2) && s.err || decide (i = 3) && s.ovr ||
        decide (4 ≤ i) && s.ecode.bits.getLsbD (i - 4) || decide (i = 8) && s.av || decide (i = 9) && s.bv ||
        decide (i = 10) && s.cv || decide (i = 11) && s.active) := by
  have h0 := bit_shiftLeft_getLsbD s.busy 0 i hi
  rw [BitVec.shiftLeft_zero] at h0
  have hcode : (s.ecode.bits.setWidth 32 <<< 4).getLsbD i = (decide (4 ≤ i) && s.ecode.bits.getLsbD (i - 4)) := by
    simp only [BitVec.getLsbD_shiftLeft, BitVec.getLsbD_setWidth]
    by_cases h4 : 4 ≤ i
    · simp [hi, h4, Nat.not_lt.2 h4, show i - 4 < 32 by omega]
    · simp [h4, Nat.lt_of_not_le h4]
  simp only [State.status, BitVec.getLsbD_or, bit_shiftLeft_getLsbD _ _ _ hi, h0, hcode]

/-- Settles O17, bit by bit. -/
theorem statusReadsItsFields : Obligations.StatusReadsItsFields := by
  intro s
  have hcode : ∀ i, 4 ≤ i → s.ecode.bits.getLsbD i = false := fun i h => BitVec.getLsbD_of_ge _ i h
  have hflag := fun i (hi : i < 32) => s.status_getLsbD hi
  refine ⟨?_, ?_, ?_, ?_, ?_, ?_, ?_, ?_, ?_, ?_⟩
  · rw [hflag 0 (by decide)]; simp [State.busy_iff]
  · rw [hflag 1 (by decide)]; simp
  · rw [hflag 2 (by decide)]; simp
  · rw [hflag 3 (by decide)]; simp
  · apply BitVec.eq_of_getLsbD_eq
    intro i hi
    rw [BitVec.getLsbD_extractLsb', hflag (4 + i) (by omega)]
    have hne : 4 + i ≠ 1 ∧ 4 + i ≠ 2 ∧ 4 + i ≠ 3 ∧ 4 + i ≠ 8 ∧ 4 + i ≠ 9 ∧ 4 + i ≠ 10 ∧ 4 + i ≠ 11 := by omega
    simp [hi, hne]
  · rw [hflag 8 (by decide)]; simp [State.av]
  · rw [hflag 9 (by decide)]; simp [State.bv]
  · rw [hflag 10 (by decide)]; simp [State.cv]
  · rw [hflag 11 (by decide)]; simp
  · apply BitVec.eq_of_getLsbD_eq
    intro i hi
    rw [BitVec.getLsbD_extractLsb', hflag (12 + i) (by omega)]
    have hne : 12 + i ≠ 1 ∧ 12 + i ≠ 2 ∧ 12 + i ≠ 3 ∧ 12 + i ≠ 8 ∧ 12 + i ≠ 9 ∧ 12 + i ≠ 10 ∧ 12 + i ≠ 11 := by omega
    simp [hne, hcode (12 + i - 4) (by omega)]

theorem hostRead_missing {s : State} {idx : BitVec 4} (hv : s.regValue (Reg.ofIndex idx) = none) :
    hostRead idx s =
      { s with answer := some ⟨idx, Config.unspecifiedRead s.freeReads, true⟩, freeReads := s.freeReads + 1 } := by
  simp [hostRead, hv]

/-- Settles O21: a word without a value has no register value, so the read answers the free value, marked. -/
theorem readOfAMissingWordIsMarked : Obligations.ReadOfAMissingWordIsMarked := by
  intro s rest idx hi hmissing
  have hv : State.regValue { s with inbox := rest } (Reg.ofIndex idx) = none := by
    rcases hmissing with ⟨rfl, h⟩ | ⟨rfl, h⟩ | ⟨rfl, h⟩ <;> simpa [State.regValue] using h
  exact ⟨Config.unspecifiedRead s.freeReads, s.freeReads + 1, by rw [step_cons hi, handle, hostRead_missing hv]⟩

end Sys2Proof.Machine
end


section
/-!
The key memory (20_memory.md): what no command writes, the only step that changes a byte, and the byte order of `le32`.
-/
namespace Sys2Proof.Machine

/-! ## What no command writes -/

/-- The fields that no command writes: the key memory, the operand registers and the host's side of the order. -/
structure SameHostSide (s t : State) : Prop where
  kmem : t.kmem = s.kmem
  len : t.len = s.len
  seed : t.seed = s.seed
  kaddr : t.kaddr = s.kaddr
  inbox : t.inbox = s.inbox
  answer : t.answer = s.answer
  freeReads : t.freeReads = s.freeReads

theorem AcceptMove.sameHostSide {s t : State} {i : Instr} (hm : AcceptMove s i t) : SameHostSide s t := by
  obtain ⟨d, p, e, c, rfl⟩ := hm.frame
  exact ⟨rfl, rfl, rfl, rfl, rfl, rfl, rfl⟩

theorem AcceptMove.ovr {s t : State} {i : Instr} (hm : AcceptMove s i t) : t.ovr = s.ovr := by
  obtain ⟨d, p, e, c, rfl⟩ := hm.frame
  rfl

theorem EngineMove.sameHostSide {s t : State} (hm : EngineMove s t) : SameHostSide s t := by
  cases hm with
  | rotl => constructor <;> simp
  | _ => exact ⟨rfl, rfl, rfl, rfl, rfl, rfl, rfl⟩

theorem EngineMove.ovr {s t : State} (hm : EngineMove s t) : t.ovr = s.ovr := by
  cases hm with
  | rotl x => exact State.setWord_ovr s x _
  | _ => rfl

/-- A command is accepted, takes its step, or is dropped; only the drop touches OVR (R78). -/
theorem exec_sameHostSide {i : Instr} {s t : State} (h : exec i s = .next t) :
    SameHostSide s t ∧ (t.ovr = s.ovr ∨ s.pend ≠ .none ∧ t = s.drop) := by
  by_cases hp : s.pend = .none
  · have hm := exec_accept hp h
    exact ⟨hm.sameHostSide, .inl hm.ovr⟩
  · rcases exec_pending hp h with ⟨-, rfl⟩ | ⟨-, hm⟩
    · exact ⟨⟨rfl, rfl, rfl, rfl, rfl, rfl, rfl⟩, .inr ⟨hp, rfl⟩⟩
    · exact ⟨hm.sameHostSide, .inl hm.ovr⟩

/-- Settles O47, from the frame of a command's accept lines, of its step and of a drop. -/
theorem commandsLeaveMemoryAndOperandRegisters : Obligations.CommandsLeaveMemoryAndOperandRegisters := by
  intro i s t h
  obtain ⟨e, hovr⟩ := exec_sameHostSide h
  refine ⟨fun addr => by rw [e.kmem], by rw [e.kmem], e.len, e.seed, e.kaddr, e.inbox, e.answer, e.freeReads, fun hne => ?_⟩
  exact hovr.resolve_left hne

/-! ## What changes the key memory -/

/-- A step leaves the key memory, or is a host's key-memory write with nothing pending (R79). -/
theorem step_kmem {s t : State} (h : step s = .next t) :
    t.kmem = s.kmem ∨
      ∃ addr v rest, s.inbox = .keyWrite addr v :: rest ∧ s.pend = .none ∧ t.kmem = s.kmem.write addr.toNat v := by
  cases step_move h with
  | key addr v rest hi hp => exact .inr ⟨addr, v, rest, hi, hp, rfl⟩
  | engine _ _ _ _ _ hm => exact .inl hm.sameHostSide.kmem
  | accept _ _ _ _ _ _ _ _ _ hm => exact .inl hm.sameHostSide.kmem
  | _ => exact .inl (by simp [writeWord])

/-- While a command is pending no step but a reset changes an operand register (R41, R42). -/
theorem step_operands_pending {s t : State} (h : step s = .next t) (hp : s.pend ≠ .none)
    (hreset : ∀ rest, s.inbox ≠ .reset :: rest) : t.len = s.len ∧ t.seed = s.seed ∧ t.kaddr = s.kaddr := by
  rcases step_operands h with ⟨rest, hi⟩ | ⟨_, _, _, hn, _⟩ | ⟨_, _, _, hn, _⟩ | ⟨_, _, _, hn, _⟩ | he
  · exact absurd hi (hreset rest)
  · exact absurd hn hp
  · exact absurd hn hp
  · exact absurd hn hp
  · exact he

/-- A write changes what an address reads as only at its own address, and only inside the key memory (R79). -/
theorem Memory.eq_of_read_write_ne {m : Memory} {addr x : Nat} {v : Byte} (h : m.wf = true)
    (hne : (m.write addr v).read x ≠ m.read x) : addr = x ∧ x < m.size := by
  rw [Memory.read_write m addr v x h] at hne
  by_cases hx : addr < m.size ∧ x = addr
  · exact ⟨hx.2.symm, hx.2 ▸ hx.1⟩
  · exact absurd (if_neg hx) hne

/-- Settles O50: the one step that writes the key memory is a key-memory write with nothing pending, which changes its own byte alone. -/
theorem onlyIdleKeyWritesChangeKeyMemory : Obligations.OnlyIdleKeyWritesChangeKeyMemory := by
  intro s t hwf h
  rcases step_kmem h with hk | ⟨addr, v, rest, hi, hidle, hk⟩
  · rw [hk]
    exact ⟨fun x hne => absurd rfl hne, rfl, fun hp => ⟨rfl, step_operands_pending h hp⟩⟩
  · rw [hk]
    refine ⟨fun x hne => ?_, Memory.write_size _ _ _, fun hp => absurd hidle hp⟩
    exact ⟨addr, v, rest, hi, hidle, Memory.eq_of_read_write_ne hwf hne⟩

/-! ## Byte order -/

/-- A byte shifted to place `j` of a word holds the bits of that place alone. -/
theorem byte_shiftLeft_getLsbD (v : Byte) (j : Nat) {k i : Nat} (hk : k < 4) (hi : i < 8) :
    (v.setWidth 32 <<< (8 * j)).getLsbD (8 * k + i) = (decide (k = j) && v.getLsbD i) := by
  have hin : 8 * k + i < 32 := by omega
  rw [BitVec.getLsbD_shiftLeft, BitVec.getLsbD_setWidth]
  rcases Nat.lt_trichotomy k j with hlt | rfl | hgt
  · have hbelow : 8 * k + i < 8 * j := by omega
    simp [hbelow, Nat.ne_of_lt hlt]
  · have hi32 : i < 32 := by omega
    simp [hin, hi32]
  · have habove : 8 ≤ 8 * k + i - 8 * j := by omega
    simp [Nat.ne_of_gt hgt, BitVec.getLsbD_of_ge v _ habove]

/-- Bit `i` of byte `k` of `le32(p)` is bit `i` of the byte at `p + k` (R64). -/
theorem le32_getLsbD (byte : Nat → Byte) (p : Nat) {k i : Nat} (hk : k < 4) (hi : i < 8) :
    (le32 byte p).getLsbD (8 * k + i) = (byte (p + k)).getLsbD i := by
  have place := fun v j => byte_shiftLeft_getLsbD v j hk hi
  have h0 := place (byte p) 0
  rw [Nat.mul_zero, BitVec.shiftLeft_zero] at h0
  simp only [le32, BitVec.getLsbD_or, h0, place (byte (p + 1)) 1, place (byte (p + 2)) 2, place (byte (p + 3)) 3]
  interval_cases k <;> simp

/-- Settles O38, bit by bit. -/
theorem keyBytesPackLittleEndian : Obligations.KeyBytesPackLittleEndian := by
  intro byte p k hk
  apply BitVec.eq_of_getLsbD_eq
  intro i hi
  rw [BitVec.getLsbD_extractLsb', le32_getLsbD byte p hk hi, decide_eq_true hi, Bool.true_and]

end Sys2Proof.Machine
end


section
/-!
Decoding and encoding (30_encoding.md): the fields of a word as numbers, the one form of `decode` on them, and the inverse laws of the decoder and the
encoder. With them the legal words are the words of a list of commands.
-/
namespace Sys2Proof

/-! ## The fields of a word as numbers (R51) -/

theorem opField_toNat (w : Word) : (opField w).toNat = w.toNat % 16 := by
  simp [opField, BitVec.extractLsb'_toNat]

theorem rsField_eq (w : Word) : rsField w = BitVec.ofNat 2 (w.toNat / 16 % 4) := by
  apply BitVec.eq_of_toNat_eq
  simp [rsField, BitVec.extractLsb'_toNat, Nat.shiftRight_eq_div_pow]

theorem shField_eq (w : Word) : shField w = BitVec.ofNat 5 (w.toNat / 256 % 32) := by
  apply BitVec.eq_of_toNat_eq
  simp [shField, BitVec.extractLsb'_toNat, Nat.shiftRight_eq_div_pow]

theorem reservedSLow_toNat (w : Word) : (reservedSLow w).toNat = w.toNat / 64 % 4 := by
  simp [reservedSLow, BitVec.extractLsb'_toNat, Nat.shiftRight_eq_div_pow]

/-- The field reaches the top of the word, so no bit above it is cut off. -/
theorem reservedSHigh_toNat (w : Word) : (reservedSHigh w).toNat = w.toNat / 8192 := by
  have hw := w.isLt
  simp only [reservedSHigh, BitVec.extractLsb'_toNat, Nat.shiftRight_eq_div_pow]
  omega

/-- The field reaches the top of the word, so no bit above it is cut off. -/
theorem reservedZ_toNat (w : Word) : (reservedZ w).toNat = w.toNat / 16 := by
  have hw := w.isLt
  simp only [reservedZ, BitVec.extractLsb'_toNat, Nat.shiftRight_eq_div_pow]
  omega

/-- R53 on the word's number. -/
theorem decode_eq (w : Word) :
    decode w =
      if w.toNat % 16 = 7 then
        if w.toNat / 8192 ≠ 0 ∨ w.toNat / 64 % 4 ≠ 0 then .illegal .reservedBits
        else if w.toNat / 16 % 4 = 3 then .illegal .noStateWord
        else .command (.rotl (BitVec.ofNat 2 (w.toNat / 16 % 4)) (BitVec.ofNat 5 (w.toNat / 256 % 32)))
      else if 8 ≤ w.toNat % 16 then .illegal .reservedOpcode
      else if w.toNat / 16 ≠ 0 then .illegal .reservedBits
      else formatZ (opField w) := by
  have hrs : BitVec.ofNat 2 (w.toNat / 16 % 4) = 3#2 ↔ w.toNat / 16 % 4 = 3 := by
    rw [← BitVec.toNat_inj]
    simp
  simp only [decode, ← BitVec.toNat_inj (x := opField w), ← BitVec.toNat_inj (x := reservedSHigh w), ne_eq,
    ← BitVec.toNat_inj (x := reservedSLow w), ← BitVec.toNat_inj (x := reservedZ w), opField_toNat,
    reservedSHigh_toNat, reservedSLow_toNat, reservedZ_toNat, rsField_eq, shField_eq, hrs, BitVec.toNat_ofNat,
    Nat.reduceMod, Nat.reducePow]

/-! ## Format S: ROTL -/

theorem decode_formatS_reserved {w : Word} (hop : w.toNat % 16 = 7) (hres : w.toNat / 8192 ≠ 0 ∨ w.toNat / 64 % 4 ≠ 0) :
    decode w = .illegal .reservedBits := by
  rw [decode_eq, if_pos hop, if_pos hres]

theorem decode_formatS_rs3 {w : Word} (hop : w.toNat % 16 = 7) (hrs : w.toNat / 16 % 4 = 3) :
    ∃ why, decode w = .illegal why := by
  by_cases hres : w.toNat / 8192 ≠ 0 ∨ w.toNat / 64 % 4 ≠ 0
  · exact ⟨_, decode_formatS_reserved hop hres⟩
  · exact ⟨.noStateWord, by rw [decode_eq, if_pos hop, if_neg hres, if_pos hrs]⟩

theorem decode_formatS {w : Word} (hop : w.toNat % 16 = 7) (hhigh : w.toNat / 8192 = 0) (hlow : w.toNat / 64 % 4 = 0)
    (hrs : w.toNat / 16 % 4 ≠ 3) :
    decode w = .command (.rotl (BitVec.ofNat 2 (w.toNat / 16 % 4)) (BitVec.ofNat 5 (w.toNat / 256 % 32))) := by
  rw [decode_eq, if_pos hop, if_neg (by simp [hhigh, hlow]), if_neg hrs]

/-! ## Format Z: the commands without operands -/

theorem decode_reservedOpcode {w : Word} (hop : 8 ≤ w.toNat % 16) : decode w = .illegal .reservedOpcode := by
  rw [decode_eq, if_neg (by omega), if_pos hop]

theorem decode_formatZ_reserved {w : Word} (hop : w.toNat % 16 < 7) (hres : w.toNat / 16 ≠ 0) :
    decode w = .illegal .reservedBits := by
  rw [decode_eq, if_neg (by omega), if_neg (by omega), if_pos hres]

theorem decode_formatZ {w : Word} (hop : w.toNat % 16 < 7) (hres : w.toNat / 16 = 0) : decode w = formatZ (opField w) := by
  rw [decode_eq, if_neg (by omega), if_neg (by omega), if_neg (not_not.2 hres)]

/-- The Format Z column of R52 as a list. -/
theorem formatZ_eq_getElem : ∀ op : BitVec 4, op.toNat < 7 →
    some (formatZ op) = ([Decoded.command .nop, .command .init, .command .block, .command .tail, .command .hash, .command .mix,
      .command .final])[op.toNat]? := by
  decide

/-- A command of Format Z is well formed, and its word is its OP. -/
theorem encode_of_formatZ {op : BitVec 4} {i : Instr} (h : formatZ op = .command i) :
    i.wellFormed = true ∧ (encode i).toNat = op.toNat := by
  unfold formatZ at h
  split at h
  case h_8 => cases h
  all_goals
    rename_i hop
    obtain rfl := Decoded.command.inj h
    exact ⟨rfl, hop.symm⟩

/-! ## The decoder and the encoder are inverse -/

/-- OP, RS and SH stand side by side in the word of a ROTL (R50), for each of the 128 operand pairs. -/
theorem encode_rotl_toNat (rs : BitVec 2) (sh : BitVec 5) :
    (encode (.rotl rs sh)).toNat = 7 + rs.toNat * 16 + sh.toNat * 256 := by
  revert rs sh
  decide

theorem Instr.wellFormed_rotl_iff (rs : BitVec 2) (sh : BitVec 5) : (Instr.rotl rs sh).wellFormed = true ↔ rs.toNat ≠ 3 := by
  rw [Instr.wellFormed, bne_iff_ne, ne_eq, ← BitVec.toNat_inj]
  rfl

theorem decode_encode {i : Instr} (h : i.wellFormed = true) : decode (encode i) = .command i := by
  cases i with
  | rotl rs sh =>
    have hrs := (Instr.wellFormed_rotl_iff rs sh).1 h
    have hrs4 := rs.isLt
    have hsh32 := sh.isLt
    have hw := encode_rotl_toNat rs sh
    have hrsField : (encode (.rotl rs sh)).toNat / 16 % 4 = rs.toNat := by omega
    have hshField : (encode (.rotl rs sh)).toNat / 256 % 32 = sh.toNat := by omega
    rw [decode_formatS (by omega) (by omega) (by omega) (by omega), hrsField, hshField, BitVec.ofNat_toNat, BitVec.ofNat_toNat,
      BitVec.setWidth_eq, BitVec.setWidth_eq]
  | _ => rfl

/-- A word that decodes to a command is one of the two formats with no reserved bit set. -/
theorem decode_command_cases {w : Word} {i : Instr} (h : decode w = .command i) :
    (w.toNat % 16 = 7 ∧ w.toNat / 8192 = 0 ∧ w.toNat / 64 % 4 = 0 ∧ w.toNat / 16 % 4 ≠ 3 ∧
      i = .rotl (BitVec.ofNat 2 (w.toNat / 16 % 4)) (BitVec.ofNat 5 (w.toNat / 256 % 32))) ∨
    (w.toNat / 16 = 0 ∧ formatZ (opField w) = .command i) := by
  rw [decode_eq] at h
  split_ifs at h with hop hres hrs hop8 hresZ
  · obtain ⟨hhigh, hlow⟩ := not_or.1 hres
    exact .inl ⟨hop, not_not.1 hhigh, not_not.1 hlow, hrs, (Decoded.command.inj h).symm⟩
  · exact .inr ⟨not_not.1 hresZ, h⟩

theorem encode_of_decode {w : Word} {i : Instr} (h : decode w = .command i) : i.wellFormed = true ∧ encode i = w := by
  rcases decode_command_cases h with ⟨hop, hhigh, hlow, hrs, rfl⟩ | ⟨hres, hz⟩
  · have hrsField : (BitVec.ofNat 2 (w.toNat / 16 % 4)).toNat = w.toNat / 16 % 4 := by simp
    have hshField : (BitVec.ofNat 5 (w.toNat / 256 % 32)).toNat = w.toNat / 256 % 32 := by simp
    refine ⟨(Instr.wellFormed_rotl_iff _ _).2 (hrsField.symm ▸ hrs), BitVec.eq_of_toNat_eq ?_⟩
    rw [encode_rotl_toNat, hrsField, hshField]
    omega
  · obtain ⟨hwf, hword⟩ := encode_of_formatZ hz
    refine ⟨hwf, BitVec.eq_of_toNat_eq ?_⟩
    rw [hword, opField_toNat]
    omega

/-- Settles O5, from the two inverse laws. -/
theorem wordDecodesExactlyToItsCommand : Obligations.WordDecodesExactlyToItsCommand := fun _ _ =>
  ⟨encode_of_decode, fun ⟨hwf, hw⟩ => hw ▸ decode_encode hwf⟩

/-! ## The legal words -/

/-- The commands of R52 with every operand they allow: seven of Format Z, and ROTL for three words and 32 shifts. -/
def legalCommands : List Instr :=
  [.nop, .init, .block, .tail, .hash, .mix, .final] ++
    (([0#2, 1#2, 2#2] : List (BitVec 2)) ×ˢ List.finRange 32).map fun p => .rotl p.1 (BitVec.ofFin p.2)

theorem mem_legalCommands_iff (i : Instr) : i ∈ legalCommands ↔ i.wellFormed = true := by
  cases i with
  | rotl rs sh =>
    have hselects : ∀ r : BitVec 2, r ∈ [0#2, 1#2, 2#2] ↔ (r != 3#2) = true := by decide
    have hpair : ∀ p : BitVec 2 × Fin 32, Instr.rotl p.1 (BitVec.ofFin p.2) = .rotl rs sh ↔ p = (rs, sh.toFin) := by
      rintro ⟨r, k⟩
      simp [Prod.ext_iff, ← BitVec.toFin_inj]
    calc Instr.rotl rs sh ∈ legalCommands
      _ ↔ (rs, sh.toFin) ∈ ([0#2, 1#2, 2#2] : List (BitVec 2)) ×ˢ List.finRange 32 := by
        simp [legalCommands, hpair, -List.product_cons]
      _ ↔ (Instr.rotl rs sh).wellFormed = true := by
        rw [List.mem_product, hselects]
        exact and_iff_left (List.mem_finRange _)
  | _ => simp [legalCommands, Instr.wellFormed]

theorem legalCommands_nodup : legalCommands.Nodup := by
  refine List.Nodup.append (by decide) (List.Nodup.map ?_ ?_) ?_
  · rintro ⟨r, k⟩ ⟨r', k'⟩ h
    simpa using h
  · exact List.Nodup.product (by decide) (List.nodup_finRange 32)
  · simp [List.Disjoint]

theorem legalCommands_length : legalCommands.length = 103 := by
  simp [legalCommands]

/-- R53's count: the legal words are the words of `legalCommands`, and no two commands share a word. -/
theorem exists_legalWords :
    ∃ ws : List Word, ws.Nodup ∧ ws.length = 103 ∧ ∀ w, w ∈ ws ↔ ∃ i, decode w = .command i := by
  refine ⟨legalCommands.map encode, List.Nodup.map_on ?_ legalCommands_nodup, ?_, fun w => ?_⟩
  · intro i hi j hj hij
    have hdi := decode_encode ((mem_legalCommands_iff i).1 hi)
    have hdj := decode_encode ((mem_legalCommands_iff j).1 hj)
    exact Decoded.command.inj (hdi.symm.trans (hij ▸ hdj))
  · rw [List.length_map, legalCommands_length]
  · simp only [List.mem_map, mem_legalCommands_iff, wordDecodesExactlyToItsCommand w]

/-- Settles O6, clause by clause from the laws of the two formats. -/
theorem decodeFollowsTheFieldsOfTheWord : Obligations.DecodeFollowsTheFieldsOfTheWord := by
  refine ⟨fun w hop hres => ⟨_, decode_formatS_reserved hop hres⟩, fun w hop hrs => decode_formatS_rs3 hop hrs,
    fun w hop hhigh hlow hrs => decode_formatS hop hhigh hlow hrs, fun w hop => ⟨_, decode_reservedOpcode hop⟩,
    fun w hop hres => ⟨_, decode_formatZ_reserved hop hres⟩, fun w hop hres => ?_, exists_legalWords⟩
  rw [decode_formatZ hop hres, ← opField_toNat]
  exact formatZ_eq_getElem _ (opField_toNat w ▸ hop)

/-- Settles O7: each word is evaluated. -/
theorem sampleWordsDecodeAsListed : Obligations.SampleWordsDecodeAsListed := by
  unfold Obligations.SampleWordsDecodeAsListed
  decide

end Sys2Proof
end


section
/-!
The functions of 40_mixer.md: `rotl32` bit by bit (R55) and its laws (R56), and the two rounds as runs of one sub-step each (R57, R59). Every sub-step
can be undone, so the rounds are bijections (R58, R60).
-/
namespace Sys2Proof.Machine

/-! ## Rotation (R55, R56) -/

theorem rotl32_zero (w : Word) : rotl32 w 0 = w := rfl

theorem rotl32_eq_or (w : Word) {s : Nat} (hs : 0 < s) : rotl32 w s = (w <<< s) ||| (w >>> (32 - s)) :=
  if_neg (Nat.ne_of_gt hs)

theorem rotl32_eq_rotateLeft (w : Word) {s : Nat} (hs : s < 32) : rotl32 w s = w.rotateLeft s := by
  rw [BitVec.rotateLeft_eq_rotateLeftAux_of_lt hs, BitVec.rotateLeftAux]
  rcases Nat.eq_zero_or_pos s with rfl | hpos
  · rw [Nat.sub_zero, BitVec.ushiftRight_eq_zero (Nat.le_refl 32), BitVec.shiftLeft_zero, BitVec.or_zero, rotl32_zero]
  · exact rotl32_eq_or w hpos

/-- R55: the bits move up by `s`, and the top `s` bits come in at the bottom. -/
theorem rotl32_getLsbD (w : Word) {s i : Nat} (hs : s < 32) (hi : i < 32) :
    (rotl32 w s).getLsbD i = w.getLsbD ((i + 32 - s) % 32) := by
  rw [rotl32_eq_rotateLeft w hs, BitVec.getLsbD_rotateLeft_of_le hs]
  by_cases hlow : i < s
  · have hplace : (i + 32 - s) % 32 = 32 - s + i := by omega
    simp [hlow, hplace]
  · have hplace : (i + 32 - s) % 32 = i - s := by omega
    simp [hlow, hi, hplace]

/-- Settles O30, from the bit law and the two cases of the definition. -/
theorem rotateMovesEachBit : Obligations.RotateMovesEachBit := by
  intro w s hs
  refine ⟨fun i hi => rotl32_getLsbD w (Nat.lt_succ_of_le hs) hi, ?_, rotl32_eq_or w⟩
  rintro rfl
  exact rotl32_zero w

theorem rotl32_rotl32 (w : Word) {s t : Nat} (hs : s < 32) (ht : t < 32) :
    rotl32 (rotl32 w s) t = rotl32 w ((s + t) % 32) := by
  apply BitVec.eq_of_getLsbD_eq
  intro i hi
  have hmod : ∀ n, n % 32 < 32 := fun n => Nat.mod_lt n (by decide)
  have hplace : ((i + 32 - t) % 32 + 32 - s) % 32 = (i + 32 - (s + t) % 32) % 32 := by omega
  rw [rotl32_getLsbD _ ht hi, rotl32_getLsbD w hs (hmod _), rotl32_getLsbD w (hmod _) hi, hplace]

/-- R56: the inverse of a rotation is the rotation that completes the turn. -/
theorem rotl32_inverse (w : Word) {s : Nat} (hs : s < 32) :
    rotl32 (rotl32 w s) ((32 - s) % 32) = w ∧ rotl32 (rotl32 w ((32 - s) % 32)) s = w := by
  have ht : (32 - s) % 32 < 32 := Nat.mod_lt _ (by decide)
  have hturn : (s + (32 - s) % 32) % 32 = 0 := by omega
  rw [rotl32_rotl32 w hs ht, rotl32_rotl32 w ht hs, Nat.add_comm _ s, hturn, rotl32_zero]
  exact ⟨rfl, rfl⟩

theorem rotl32_bijective {s : Nat} (hs : s < 32) : Function.Bijective fun w : Word => rotl32 w s :=
  Function.bijective_iff_has_inverse.2 ⟨fun w => rotl32 w ((32 - s) % 32), fun w => (rotl32_inverse w hs).1,
    fun w => (rotl32_inverse w hs).2⟩

theorem rotl32_eq_self_of_bits_eq {w : Word} {s : Nat} (b : Bool) (hs : s < 32) (hb : ∀ i < 32, w.getLsbD i = b) :
    rotl32 w s = w := by
  apply BitVec.eq_of_getLsbD_eq
  intro i hi
  rw [rotl32_getLsbD w hs hi, hb _ (Nat.mod_lt _ (by decide)), hb i hi]

/-- The list of the bits is rotated too, so each value occurs in it as often as before. -/
theorem rotl32_countP (w : Word) {s : Nat} (hs : s < 32) :
    (List.range 32).countP (fun i => (rotl32 w s).getLsbD i) = (List.range 32).countP (fun i => w.getLsbD i) := by
  have hbits : (List.range 32).map (rotl32 w s).getLsbD = ((List.range 32).map w.getLsbD).rotate (32 - s) := by
    apply List.ext_getElem
    · rw [List.length_rotate, List.length_map, List.length_map]
    · intro i hi _
      rw [List.length_map, List.length_range] at hi
      simp only [List.getElem_rotate, List.getElem_map, List.getElem_range, List.length_map, List.length_range]
      rw [rotl32_getLsbD w hs hi, Nat.add_sub_assoc (Nat.le_of_lt hs)]
  have hcount := (((List.range 32).map w.getLsbD).rotate_perm (32 - s)).countP_eq id
  rwa [← hbits, List.countP_map, List.countP_map] at hcount

/-- Settles O31, law by law. -/
theorem rotateLaws : Obligations.RotateLaws := by
  have lt32 {n : Nat} (h : n ≤ 31) : n < 32 := Nat.lt_succ_of_le h
  refine ⟨rotl32_zero, fun w s t hs ht => rotl32_rotl32 w (lt32 hs) (lt32 ht), fun s hs => ?_, fun s hs => ?_,
    fun w s hs => rotl32_countP w (lt32 hs)⟩
  · exact ⟨rotl32_bijective (lt32 hs), fun w => rotl32_inverse w (lt32 hs)⟩
  · exact ⟨rotl32_eq_self_of_bits_eq false (lt32 hs) (by decide), rotl32_eq_self_of_bits_eq true (lt32 hs) (by decide)⟩

/-! ## The rounds as runs of one sub-step -/

/-- A sub-step of the Mix Round on `(x, y, z)`; the next sub-step finds its words in the order `(y, z, x)` (R57). -/
def mixSubStep (q : Word × Word × Word) (k : Nat) : Word × Word × Word := (q.2.1, q.2.2 + q.2.1, mixOut k q.1 q.2.2)

/-- A sub-step of the Finalization Round on `(z, y, third)`; the next sub-step finds its words in the order `(third, z, y)` (R59). -/
def finalSubStep (q : Word × Word × Word) (k : Nat) : Word × Word × Word := (q.2.2, finalOut k q.1 q.2.1, q.2.1)

/-- The words in the roles of the first sub-step of the Mix Round, which are also those after its sixth. -/
def mixRoles : Words ≃ Word × Word × Word where
  toFun t := (t.a, t.b, t.c)
  invFun q := ⟨q.1, q.2.1, q.2.2⟩
  left_inv _ := rfl
  right_inv _ := rfl

/-- The words in the roles of the first sub-step of the Finalization Round. -/
def finalRoles : Words ≃ Word × Word × Word where
  toFun t := (t.c, t.b, t.a)
  invFun q := ⟨q.2.2, q.2.1, q.1⟩
  left_inv _ := rfl
  right_inv _ := rfl

/-- The words in the roles after the seventh sub-step of the Finalization Round. -/
def finalRolesAfter : Words ≃ Word × Word × Word where
  toFun t := (t.a, t.c, t.b)
  invFun q := ⟨q.1, q.2.2, q.2.1⟩
  left_inv _ := rfl
  right_inv _ := rfl

theorem mix_eq_foldl : mix = mixRoles.symm ∘ (fun q => [4, 6, 8, 16, 19, 4].foldl mixSubStep q) ∘ mixRoles := rfl

theorem final_eq_foldl :
    final = finalRolesAfter.symm ∘ (fun q => [14, 11, 25, 16, 4, 14, 24].foldl finalSubStep q) ∘ finalRoles := rfl

theorem mixSubStep_eq_rotateLeft (q : Word × Word × Word) {k : Nat} (hk : k < 32) :
    mixSubStep q k = (q.2.1, q.2.2 + q.2.1, (q.1 - q.2.2) ^^^ q.2.2.rotateLeft k) := by
  rw [mixSubStep, mixOut, rotl32_eq_rotateLeft _ hk]

theorem finalSubStep_eq_rotateLeft (q : Word × Word × Word) {k : Nat} (hk : k < 32) :
    finalSubStep q k = (q.2.2, (q.1 ^^^ q.2.1) - q.2.1.rotateLeft k, q.2.1) := by
  rw [finalSubStep, finalOut, rotl32_eq_rotateLeft _ hk]

/-- Settles O28: the sub-steps agree at each of the six rotations. -/
theorem mixRoundIsItsSixSubSteps : Obligations.MixRoundIsItsSixSubSteps := by
  intro t
  have hlt : ∀ k ∈ [4, 6, 8, 16, 19, 4], k < 32 := by decide
  rw [mix_eq_foldl, Function.comp_apply, Function.comp_apply,
    List.foldl_ext _ _ _ fun q k hk => mixSubStep_eq_rotateLeft q (hlt k hk)]
  rfl

/-- Settles O29: the sub-steps agree at each of the seven rotations. -/
theorem finalizationRoundIsItsSevenSubSteps : Obligations.FinalizationRoundIsItsSevenSubSteps := by
  intro t
  have hlt : ∀ k ∈ [14, 11, 25, 16, 4, 14, 24], k < 32 := by decide
  rw [final_eq_foldl, Function.comp_apply, Function.comp_apply,
    List.foldl_ext _ _ _ fun q k hk => finalSubStep_eq_rotateLeft q (hlt k hk)]
  rfl

/-! ## The rounds lose nothing (R58, R60) -/

/-- Undoes a sub-step of the Mix Round: `z` comes back from `z + y` and `y`, and then `x` (R58). -/
def mixUndo (p : Word × Word × Word) (k : Nat) : Word × Word × Word :=
  ((p.2.2 ^^^ rotl32 (p.2.1 - p.1) k) + (p.2.1 - p.1), p.1, p.2.1 - p.1)

/-- Undoes a sub-step of the Finalization Round: `z += rotl32(y, k); z ^= y` (R60). -/
def finalUndo (p : Word × Word × Word) (k : Nat) : Word × Word × Word := ((p.2.1 + rotl32 p.2.2 k) ^^^ p.2.2, p.2.2, p.1)

theorem mixUndo_mixSubStep (q : Word × Word × Word) (k : Nat) : mixUndo (mixSubStep q k) k = q := by
  simp [mixUndo, mixSubStep, mixOut]

theorem mixSubStep_mixUndo (p : Word × Word × Word) (k : Nat) : mixSubStep (mixUndo p k) k = p := by
  simp [mixUndo, mixSubStep, mixOut]

theorem finalUndo_finalSubStep (q : Word × Word × Word) (k : Nat) : finalUndo (finalSubStep q k) k = q := by
  simp [finalUndo, finalSubStep, finalOut]

theorem finalSubStep_finalUndo (p : Word × Word × Word) (k : Nat) : finalSubStep (finalUndo p k) k = p := by
  simp [finalUndo, finalSubStep, finalOut]

theorem mixSubStep_bijective (k : Nat) : Function.Bijective fun q => mixSubStep q k :=
  Function.bijective_iff_has_inverse.2 ⟨(mixUndo · k), (mixUndo_mixSubStep · k), (mixSubStep_mixUndo · k)⟩

theorem finalSubStep_bijective (k : Nat) : Function.Bijective fun q => finalSubStep q k :=
  Function.bijective_iff_has_inverse.2 ⟨(finalUndo · k), (finalUndo_finalSubStep · k), (finalSubStep_finalUndo · k)⟩

/-- A run of bijective sub-steps is bijective. -/
theorem foldl_bijective {α β : Type} {f : α → β → α} (hf : ∀ b, Function.Bijective fun a => f a b) :
    ∀ bs : List β, Function.Bijective fun a => bs.foldl f a
  | [] => Function.bijective_id
  | b :: bs => (foldl_bijective hf bs).comp (hf b)

/-- Settles O32: the round is a run of sub-steps that can be undone, between two orders of the words. -/
theorem mixRoundIsBijective : Obligations.MixRoundIsBijective := by
  refine ⟨?_, by decide⟩
  rw [mix_eq_foldl]
  exact mixRoles.symm.bijective.comp ((foldl_bijective mixSubStep_bijective _).comp mixRoles.bijective)

/-- Settles O33: the round is a run of sub-steps that can be undone, between two orders of the words. -/
theorem finalizationRoundIsBijective : Obligations.FinalizationRoundIsBijective := by
  refine ⟨?_, by decide⟩
  rw [final_eq_foldl]
  exact finalRolesAfter.symm.bijective.comp ((foldl_bijective finalSubStep_bijective _).comp finalRoles.bijective)

end Sys2Proof.Machine
end


section
/-!
The commands of 40_mixer.md: what a command of one step does while nothing is pending and at its own step, ROTL (R61), MIX (R62) and FINAL (R63) read
off from it, and the frame of the family.
-/
namespace Sys2Proof.Machine

/-! ## A command of one step -/

section
variable {own : Pend} {ok : State → Bool} {code : ECode} {begin : State → State}
  {step : State → Host.Outcome State Fault Refusal} {s : State}

theorem command_accepts (hown : own ≠ .none) (hp : s.pend = .none) (hok : ok s = true) :
    command own (fun s => acceptIf (ok s) code begin s) step s = .next (begin s) := by
  simp [command, offer, acceptIf, hp, hown.symm, hok]

theorem command_rejects (hown : own ≠ .none) (hp : s.pend = .none) (hok : ok s = false) :
    command own (fun s => acceptIf (ok s) code begin s) step s = .next (raiseError code s) := by
  simp [command, offer, acceptIf, hp, hown.symm, hok]

theorem command_steps {accept : State → Host.Outcome State Fault Refusal} (hp : s.pend = own) :
    command own accept step s = step s :=
  if_pos hp

theorem roundStep_eq {round : Words → Words} {count : State → State} {t : Words} (hw : s.words = some t) :
    roundStep round count s = .next (count (s.setWords (round t))).finish := by
  simp [roundStep, hw]

theorem rotlStep_eq {x : WordSel} {sh : BitVec 5} {v : Word} (hw : s.word x = some v) :
    rotlStep x sh s = .next (s.setWord x (v.rotateLeft sh.toNat)).finish := by
  simp [rotlStep, hw, rotl32_eq_rotateLeft v sh.isLt]

end

theorem State.wordsOk_eq_false_iff (s : State) : s.wordsOk = false ↔ s.a = none ∨ s.b = none ∨ s.c = none := by
  simp only [State.wordsOk, State.av, State.bv, State.cv, Bool.and_eq_false_iff, Option.isSome_eq_false_iff,
    Option.isNone_iff_eq_none, or_assoc]

theorem State.words_of_values {s : State} {x y z : Word} (ha : s.a = some x) (hb : s.b = some y) (hc : s.c = some z) :
    s.words = some ⟨x, y, z⟩ :=
  (State.words_eq_some s ⟨x, y, z⟩).2 ⟨ha, hb, hc⟩

/-- The word of a command without operands is the only legal word of its OP (R52, R53). -/
theorem decode_illegal_of_ne {w : Word} {op : Nat} (hop : w.toNat % 16 = op) (hlt : op < 7) (hne : w ≠ BitVec.ofNat 32 op) :
    ∃ why, decode w = .illegal why := by
  refine ⟨_, decode_formatZ_reserved (by omega) fun hres => hne (BitVec.eq_of_toNat_eq ?_)⟩
  rw [BitVec.toNat_ofNat]
  omega

/-! ## MIX and FINAL (R62, R63) -/

section
variable {own : Pend} {round : Words → Words} {count : State → State} {s : State} {x y z : Word}

theorem roundCommand_accepts (hown : own ≠ .none) (hp : s.pend = .none) (ha : s.a = some x) (hb : s.b = some y)
    (hc : s.c = some z) :
    command own (fun s => acceptIf s.wordsOk .uninit (fun s => s.start own) s) (roundStep round count) s = .next (s.start own) :=
  command_accepts hown hp ((State.wordsOk_iff s).2 ⟨_, State.words_of_values ha hb hc⟩)

theorem roundCommand_rejects (hown : own ≠ .none) (hp : s.pend = .none) (hmissing : s.a = none ∨ s.b = none ∨ s.c = none) :
    command own (fun s => acceptIf s.wordsOk .uninit (fun s => s.start own) s) (roundStep round count) s =
      .next (raiseError .uninit s) :=
  command_rejects hown hp ((State.wordsOk_eq_false_iff s).2 hmissing)

theorem roundCommand_steps {accept : State → Host.Outcome State Fault Refusal} (hp : s.pend = own) (ha : s.a = some x)
    (hb : s.b = some y) (hc : s.c = some z) :
    command own accept (roundStep round count) s = .next (count (s.setWords (round ⟨x, y, z⟩))).finish :=
  (command_steps hp).trans (roundStep_eq (State.words_of_values ha hb hc))

end

/-- Settles O26, from the acceptance, the rejection and the step of a round; the words are evaluated. -/
theorem mixFollowsItsRule : Obligations.MixFollowsItsRule :=
  ⟨by decide, fun _ hop hne => decode_illegal_of_ne hop (by decide) hne,
    fun _ _ _ _ hp ha hb hc => roundCommand_accepts (by decide) hp ha hb hc,
    fun _ hp hmissing => roundCommand_rejects (by decide) hp hmissing,
    fun _ _ _ _ hp ha hb hc => roundCommand_steps hp ha hb hc, by decide⟩

/-- Settles O27, from the acceptance, the rejection and the step of a round; the words are evaluated. -/
theorem finalFollowsItsRule : Obligations.FinalFollowsItsRule :=
  ⟨by decide, fun _ hop hne => decode_illegal_of_ne hop (by decide) hne,
    fun _ _ _ _ hp ha hb hc => roundCommand_accepts (by decide) hp ha hb hc,
    fun _ hp hmissing => roundCommand_rejects (by decide) hp hmissing,
    fun _ _ _ _ hp ha hb hc => roundCommand_steps hp ha hb hc, by decide, by decide⟩

/-! ## ROTL (R61) -/

theorem exec_rotl (x : WordSel) (sh : BitVec 5) (s : State) :
    exec (.rotl x.rs sh) s =
      command (.rotl x sh) (fun s => acceptIf (s.wordOk x) .uninit (fun s => s.start (.rotl x sh)) s) (rotlStep x sh) s := by
  simp [exec, execRotl]

theorem exec_rotl_accepts {s : State} (x : WordSel) (sh : BitVec 5) {v : Word} (hp : s.pend = .none) (hw : s.word x = some v) :
    exec (.rotl x.rs sh) s = .next (s.start (.rotl x sh)) := by
  rw [exec_rotl]
  exact command_accepts (by simp) hp (by simp [State.wordOk, hw])

theorem exec_rotl_rejects {s : State} (x : WordSel) (sh : BitVec 5) (hp : s.pend = .none) (hw : s.word x = none) :
    exec (.rotl x.rs sh) s = .next (raiseError .uninit s) := by
  rw [exec_rotl]
  exact command_rejects (by simp) hp (by simp [State.wordOk, hw])

theorem exec_rotl_steps {s : State} (x : WordSel) (sh : BitVec 5) {v : Word} (hp : s.pend = .rotl x sh) (hw : s.word x = some v) :
    exec (.rotl x.rs sh) s = .next (s.setWord x (v.rotateLeft sh.toNat)).finish := by
  rw [exec_rotl, command_steps hp, rotlStep_eq hw]

theorem decode_rotl_word {rs : BitVec 2} (sh : BitVec 5) (hrs : rs ≠ 3) :
    decode (BitVec.ofNat 32 (7 + rs.toNat * 16 + sh.toNat * 256)) = .command (.rotl rs sh) := by
  rw [← encode_rotl_toNat, BitVec.ofNat_toNat, BitVec.setWidth_eq]
  exact decode_encode (bne_iff_ne.2 hrs)

/-- Settles O25: each clause at the three words is one law at any word. -/
theorem rotlFollowsItsRule : Obligations.RotlFollowsItsRule := by
  refine ⟨fun rs sh hrs => decode_rotl_word sh hrs, fun w hop hbad => ?_, fun s sh v hp => ?_, fun s sh hp => ?_,
    fun s sh v => ?_, by decide⟩
  · rcases hbad with hrs | hlow | hhigh
    · exact decode_formatS_rs3 hop hrs
    · exact ⟨_, decode_formatS_reserved hop (.inr hlow)⟩
    · exact ⟨_, decode_formatS_reserved hop (.inl hhigh)⟩
  · exact ⟨exec_rotl_accepts .A sh hp, exec_rotl_accepts .B sh hp, exec_rotl_accepts .C sh hp⟩
  · exact ⟨exec_rotl_rejects .A sh hp, exec_rotl_rejects .B sh hp, exec_rotl_rejects .C sh hp⟩
  · exact ⟨exec_rotl_steps .A sh, exec_rotl_steps .B sh, exec_rotl_steps .C sh⟩

/-! ## The frame of the family -/

/-- Only the first error since ERR was last 0 is recorded (R94). -/
theorem AcceptMove.error {s t : State} {i : Instr} (hm : AcceptMove s i t) :
    (t.err = s.err ∧ t.ecode = s.ecode) ∨ s.err = false := by
  cases hm with
  | reject _ code =>
    cases he : s.err with
    | false => exact .inr rfl
    | true => simp [he]
  | _ => exact .inl ⟨rfl, rfl⟩

theorem exec_nop_next {s t : State} (h : exec .nop s = .next t) : (s.pend = .none ∧ t = s) ∨ (s.pend ≠ .none ∧ t = s.drop) := by
  rcases offer_next h with ⟨hp, ht⟩ | hd
  · exact .inl ⟨hp, (Host.Outcome.next.inj ht).symm⟩
  · exact .inr hd

/-- What NOP and the commands of the mixer family can do: accept lines, a drop, or the step of the pending command. -/
inductive MixerMove (s : State) : Instr → State → Prop
  | accept (i : Instr) (d : Bool) (p : Pend) (e : Bool) (c : ECode) (hp : s.pend = .none)
      (hd : d = s.done ∨ d = false ∧ i ≠ .nop) (he : e = s.err ∧ c = s.ecode ∨ s.err = false ∧ i ≠ .nop) :
      MixerMove s i { s with done := d, pend := p, err := e, ecode := c }
  | drop (i : Instr) (hp : s.pend ≠ .none) : MixerMove s i s.drop
  | mix (hp : s.pend = .mix) (w : Words) (hw : s.words = some w) :
      MixerMove s .mix { s.setWords (Machine.mix w) with nmix := s.nmix + 1, pend := .none }
  | final (hp : s.pend = .final) (w : Words) (hw : s.words = some w) :
      MixerMove s .final { s.setWords (Machine.final w) with nfin := s.nfin + 1, pend := .none }
  | rotl (x : WordSel) (sh : BitVec 5) (hp : s.pend = .rotl x sh) (v : Word) (hv : s.word x = some v) :
      MixerMove s (.rotl x.rs sh) (s.setWord x (rotl32 v sh.toNat)).finish

theorem exec_mixerMove {i : Instr} {s t : State} (h : exec i s = .next t)
    (hi : i = .nop ∨ i = .mix ∨ i = .final ∨ ∃ rs sh, i = .rotl rs sh) : MixerMove s i t := by
  by_cases hp : s.pend = .none
  · by_cases hn : i = .nop
    · subst hn
      rcases exec_nop_next h with ⟨-, rfl⟩ | ⟨hne, -⟩
      · exact .accept .nop t.done t.pend t.err t.ecode hp (.inl rfl) (.inl ⟨rfl, rfl⟩)
      · exact absurd hp hne
    · have hm := exec_accept hp h
      have hd := hm.done
      have he := hm.error
      obtain ⟨d, p, e, c, rfl⟩ := hm.frame
      exact .accept i d p e c hp (hd.imp_right fun hf => ⟨hf.1, hn⟩) (he.imp_right fun hf => ⟨hf, hn⟩)
  · rcases exec_pending hp h with ⟨-, rfl⟩ | ⟨hown, hm⟩
    · exact .drop i hp
    · cases hm with
      | mix hp w hw =>
        obtain rfl : .mix = i := by simpa [hp, pendingInstr] using hown
        exact .mix hp w hw
      | final hp w hw =>
        obtain rfl : .final = i := by simpa [hp, pendingInstr] using hown
        exact .final hp w hw
      | rotl x sh hp v hv =>
        obtain rfl : .rotl x.rs sh = i := by simpa [hp, pendingInstr] using hown
        exact .rotl x sh hp v hv
      | init hp | hashInit hp | block hp | hashBlock hp | tail hp | hashTail hp =>
        rw [hp] at hown
        obtain rfl := Option.some.inj hown
        simp at hi

/-- A write of one word leaves the others. -/
theorem State.setWord_others (s : State) (x : WordSel) (v : Word) :
    (x.rs ≠ 0 → (s.setWord x v).a = s.a) ∧ (x.rs ≠ 1 → (s.setWord x v).b = s.b) ∧ (x.rs ≠ 2 → (s.setWord x v).c = s.c) := by
  cases x <;> simp [State.setWord, WordSel.rs]

/-- Settles O48, by cases on what a command of the family can do. -/
theorem mixerCommandsFrame : Obligations.MixerCommandsFrame := by
  intro i s t h hi
  cases exec_mixerMove h hi with
  | accept i d p e c hp hd he =>
    refine ⟨rfl, rfl, rfl, rfl, by simp, by simp, by simp, by simp, fun hne => ?_, fun hne => ?_⟩
    · obtain ⟨hf, hn⟩ := hd.resolve_left hne
      exact ⟨hf, hp, hn⟩
    · obtain ⟨hf, hn⟩ := he.resolve_left fun ⟨herr, hecode⟩ => hne.elim (absurd herr) (absurd hecode)
      exact ⟨hp, hf, hn⟩
  | drop i hp => simp
  | mix hp w hw => simp [hp]
  | final hp w hw => simp [hp]
  | rotl x sh hp v hv =>
    have hothers := State.setWord_others s x (rotl32 v sh.toNat)
    refine ⟨by simp, by simp, by simp, by simp, by simp, by simp, fun _ => .inr (.inr ⟨_, _, x, rfl, hp⟩), ?_, by simp, by simp⟩
    rintro rs sh ⟨⟩
    exact hothers

end Sys2Proof.Machine
end


section
/-!
The commands of 41_hash.md: what INIT (R67), BLOCK (R68), TAIL (R69) and HASH (R70) do while nothing is pending and at each of their steps, and the
initial value (R65, R74).
-/
namespace Sys2Proof.Machine

theorem Memory.holds_of_le {m : Memory} {p n : Nat} (h : p + n ≤ m.size) : m.holds p n = true := by
  simp [Memory.holds, h]

theorem State.lengthOk_eq_false_iff (s : State) : s.lengthOk = false ↔ s.kmem.size < s.kaddr.toNat + s.len.toNat := by
  simp [State.lengthOk]

theorem State.blockOk_eq_false_iff (s : State) : s.blockOk = false ↔ s.active = false ∨ s.rem.toNat ≤ 12 := by
  rw [State.blockOk, Bool.and_eq_false_iff, decide_eq_false_iff_not, Nat.not_lt]

theorem State.tailOk_eq_false_iff (s : State) : s.tailOk = false ↔ s.active = false ∨ 12 < s.rem.toNat := by
  rw [State.tailOk, Bool.and_eq_false_iff, decide_eq_false_iff_not, Nat.not_le]

/-! ## The steps of the four commands -/

/-- INIT is a command of one step. -/
theorem exec_init_eq (s : State) :
    exec .init s = command .init (fun s => acceptIf s.lengthOk .length (fun s => s.start .init) s)
      (fun s => .next (initBody s).finish) s :=
  rfl

/-- BLOCK is a command of one step. -/
theorem exec_block_eq (s : State) :
    exec .block s = command .block (fun s => acceptIf s.blockOk .seq (fun s => s.start .block) s)
      (fun s => andThen (blockBody s) State.finish) s :=
  rfl

/-- TAIL is a command of one step, whose acceptance leaves DONE. -/
theorem exec_tail_eq (s : State) :
    exec .tail s = command .tail (fun s => acceptIf s.tailOk .seq (fun s => { s with pend := .tail }) s)
      (fun s => andThen (tailBody s) State.finish) s :=
  rfl

section
variable {s : State} {w : Words}

theorem exec_init_accepts (hp : s.pend = .none) (hin : s.kaddr.toNat + s.len.toNat ≤ s.kmem.size) :
    exec .init s = .next (s.start .init) :=
  (exec_init_eq s).trans (command_accepts (by decide) hp ((State.lengthOk_iff s).2 hin))

theorem exec_init_step (hp : s.pend = .init) : exec .init s = .next (initBody s).finish :=
  (exec_init_eq s).trans (command_steps hp)

theorem exec_block_accepts (hp : s.pend = .none) (hs : s.active = true) (hr : 12 < s.rem.toNat) :
    exec .block s = .next (s.start .block) :=
  (exec_block_eq s).trans (command_accepts (by decide) hp ((State.blockOk_iff s).2 ⟨hs, hr⟩))

theorem exec_block_step (hp : s.pend = .block) (hw : s.words = some w) (hin : s.cur.toNat + 12 ≤ s.kmem.size) :
    exec .block s = .next (absorbBlock w s).finish := by
  rw [exec_block_eq, command_steps hp, blockBody_eq hw (Memory.holds_of_le hin)]
  rfl

theorem exec_tail_accepts (hp : s.pend = .none) (hs : s.active = true) (hr : s.rem.toNat ≤ 12) :
    exec .tail s = .next { s with pend := .tail } :=
  (exec_tail_eq s).trans (command_accepts (by decide) hp ((State.tailOk_iff s).2 ⟨hs, hr⟩))

theorem exec_tail_step (hp : s.pend = .tail) (hw : s.words = some w) (hin : s.cur.toNat + s.rem.toNat ≤ s.kmem.size) :
    exec .tail s = .next (absorbTail w s).finish := by
  rw [exec_tail_eq, command_steps hp, tailBody_eq hw (Memory.holds_of_le hin)]
  rfl

/-- Outside its body HASH is a command of one step, which opens the session (R70). -/
theorem exec_hash_eq (hp : s.pend ≠ .hashBody) :
    exec .hash s = command .hashInit (fun s => acceptIf s.lengthOk .length (fun s => s.start .hashInit) s)
      (fun s => .next { initBody s with pend := .hashBody }) s :=
  if_neg hp

theorem exec_hash_accepts (hp : s.pend = .none) (hin : s.kaddr.toNat + s.len.toNat ≤ s.kmem.size) :
    exec .hash s = .next (s.start .hashInit) := by
  rw [exec_hash_eq (by simp [hp])]
  exact command_accepts (by decide) hp ((State.lengthOk_iff s).2 hin)

theorem exec_hash_init (hp : s.pend = .hashInit) : exec .hash s = .next { initBody s with pend := .hashBody } := by
  rw [exec_hash_eq (by simp [hp])]
  exact command_steps hp

theorem exec_hash_block (hp : s.pend = .hashBody) (hr : 12 < s.rem.toNat) (hw : s.words = some w)
    (hin : s.cur.toNat + 12 ≤ s.kmem.size) : exec .hash s = .next (absorbBlock w s) :=
  calc exec .hash s
    _ = hashBodyStep s := if_pos hp
    _ = blockBody s := if_pos hr
    _ = .next (absorbBlock w s) := blockBody_eq hw (Memory.holds_of_le hin)

theorem exec_hash_tail (hp : s.pend = .hashBody) (hr : s.rem.toNat ≤ 12) (hw : s.words = some w)
    (hin : s.cur.toNat + s.rem.toNat ≤ s.kmem.size) : exec .hash s = .next (absorbTail w s).finish :=
  calc exec .hash s
    _ = hashBodyStep s := if_pos hp
    _ = andThen (tailBody s) State.finish := if_neg (Nat.not_lt.2 hr)
    _ = .next (absorbTail w s).finish := by rw [tailBody_eq hw (Memory.holds_of_le hin)]; rfl

end

/-! ## The rules of the four commands -/

/-- Settles O34, from the acceptance, the rejection and the step of a command; the word is evaluated. -/
theorem initFollowsItsRule : Obligations.InitFollowsItsRule :=
  ⟨by decide, fun _ hop hne => decode_illegal_of_ne hop (by decide) hne,
    fun _ hp hin => exec_init_accepts hp hin,
    fun s hp hbeyond => (exec_init_eq s).trans (command_rejects (by decide) hp ((State.lengthOk_eq_false_iff s).2 hbeyond)),
    fun _ hp => exec_init_step hp⟩

/-- Settles O35, from the acceptance, the rejection and the step of a command; the step's mark is that of its twelve bytes. -/
theorem blockFollowsItsRule : Obligations.BlockFollowsItsRule :=
  ⟨by decide, fun _ hop hne => decode_illegal_of_ne hop (by decide) hne,
    fun _ hp hs hr => exec_block_accepts hp hs hr,
    fun s hp hbad => (exec_block_eq s).trans (command_rejects (by decide) hp ((State.blockOk_eq_false_iff s).2 hbad)),
    fun s _ _ _ hp ha hb hc hin =>
      ⟨_, exec_block_step hp (State.words_of_values ha hb hc) hin, rfl, rfl, markBytes_tainted_iff 12 s⟩⟩

/-- An empty tail adds nothing and is not finalized (R69). -/
theorem tailWords_zero (byte : Nat → Byte) (p : Nat) (t : Words) : tailWords byte p 0 t = t := rfl

theorem tailWords_pos (byte : Nat → Byte) (p : Nat) {r : Nat} (t : Words) (hr : 1 ≤ r) :
    tailWords byte p r t = final (tailacc byte p r t) :=
  if_pos hr

/-- Settles O36, from the acceptance, the rejection and the step of a command; a non-empty tail is finalized, an empty one leaves the words. -/
theorem tailFollowsItsRule : Obligations.TailFollowsItsRule := by
  refine ⟨by decide, fun _ hop hne => decode_illegal_of_ne hop (by decide) hne,
    fun _ hp hs hr => exec_tail_accepts hp hs hr,
    fun s hp hbad => (exec_tail_eq s).trans (command_rejects (by decide) hp ((State.tailOk_eq_false_iff s).2 hbad)),
    fun s x y z hp _ ha hb hc hin =>
      ⟨_, exec_tail_step hp (State.words_of_values ha hb hc) hin, fun hr => ?_, fun hr => ?_, rfl, markBytes_tainted_iff _ s⟩⟩
  · simp [tailWords_pos _ _ _ hr, hr]
  · simp [hr, tailWords_zero]

/-- Settles O37: HASH's steps and those of INIT, BLOCK and TAIL are the same bodies. -/
theorem hashRunsTheBodiesOfInitBlockAndTail : Obligations.HashRunsTheBodiesOfInitBlockAndTail := by
  refine ⟨by decide, fun _ hop hne => decode_illegal_of_ne hop (by decide) hne, fun _ hp hin => exec_hash_accepts hp hin,
    fun s hp hbeyond => ?_, fun _ hp => ⟨_, exec_init_step rfl, exec_hash_init hp⟩, fun s x y z hp hr ha hb hc hin => ?_,
    fun s x y z hp hr ha hb hc hin => ?_⟩
  · rw [exec_hash_eq (by simp [hp])]
    exact command_rejects (by decide) hp ((State.lengthOk_eq_false_iff s).2 hbeyond)
  · have hw := State.words_of_values ha hb hc
    refine ⟨_, exec_block_step rfl hw hin, ?_⟩
    rw [exec_hash_block hp hr hw hin, ← hp]
    rfl
  · have hw := State.words_of_values ha hb hc
    exact ⟨_, exec_tail_step rfl hw hin, exec_hash_tail hp hr hw hin⟩

/-! ## The initial value (R65, R74) -/

/-- Settles O40: the sum wraps once at its end, and adding the length to a fixed sum loses nothing. -/
theorem initialValueSeparatesLengths : Obligations.InitialValueSeparatesLengths := by
  refine ⟨fun len seed => ?_, fun n m seed hne heq => hne ?_⟩
  · simp [iv, BitVec.toNat_add]
  · exact (BitVec.add_right_inj _).1 ((BitVec.add_left_inj _).1 heq)

end Sys2Proof.Machine
end


section
/-!
The bytes of a key (41_hash.md): `tailacc` as additions of whole words (R66), and which bytes `jhash` reads (R73).
-/
namespace Sys2Proof.Machine

/-! ## `le32` -/

/-- `le32` depends on its four bytes alone (R64). -/
theorem le32_congr {byte byte' : Nat → Byte} {p p' : Nat} (h : ∀ k, k < 4 → byte (p + k) = byte' (p' + k)) :
    le32 byte p = le32 byte' p' := by
  have h0 : byte p = byte' p' := h 0 (by decide)
  rw [le32, le32, h0, h 1 (by decide), h 2 (by decide), h 3 (by decide)]

/-- Words that share no bit add without a carry: here all bits of `x` are below place `k`. -/
theorem or_shiftLeft_eq_add {x : Word} (y : Word) {k : Nat} (hx : x.toNat < 2 ^ k) : x ||| y <<< k = x + y <<< k := by
  refine (BitVec.add_eq_or_of_and_eq_zero x (y <<< k) ?_).symm
  ext i hi
  by_cases hk : i < k
  · simp [hk]
  · have hbit : x.getLsbD i = false := Nat.testBit_lt_two_pow (hx.trans_le (Nat.pow_le_pow_right (by decide) (Nat.not_lt.1 hk)))
    simp [← BitVec.getLsbD_eq_getElem, hbit]

/-- The four bytes of `le32` stand at places of their own, so it is their sum as well (R37). -/
theorem le32_eq_add (byte : Nat → Byte) (p : Nat) :
    le32 byte p = (byte p).setWidth 32 + (byte (p + 1)).setWidth 32 <<< 8 + (byte (p + 2)).setWidth 32 <<< 16
      + (byte (p + 3)).setWidth 32 <<< 24 := by
  have h0 : ((byte p).setWidth 32).toNat < 2 ^ 8 := by bv_omega
  have h1 : ((byte p).setWidth 32 + (byte (p + 1)).setWidth 32 <<< 8).toNat < 2 ^ 16 := by bv_omega
  have h2 : ((byte p).setWidth 32 + (byte (p + 1)).setWidth 32 <<< 8 + (byte (p + 2)).setWidth 32 <<< 16).toNat < 2 ^ 24 := by
    bv_omega
  rw [le32, or_shiftLeft_eq_add _ h0, or_shiftLeft_eq_add _ h1, or_shiftLeft_eq_add _ h2]

/-! ## `tailacc` (R66) -/

/-- Byte `j` of a tail of `r` bytes at `p`; the missing ones are zero. -/
def tailByte (byte : Nat → Byte) (p r j : Nat) : Byte := if j < r then byte (p + j) else 0

theorem le32_tailByte_zero (byte : Nat → Byte) (p q : Nat) : le32 (tailByte byte p 0) q = 0 := by
  simp [le32, tailByte]

theorem le32_tailByte_succ_self (byte : Nat → Byte) (p q : Nat) {k : Nat} (hk : k < 4) :
    le32 (tailByte byte p (4 * q + k + 1)) (4 * q) =
      le32 (tailByte byte p (4 * q + k)) (4 * q) + (byte (p + (4 * q + k))).setWidth 32 <<< (8 * k) := by
  rw [le32_eq_add, le32_eq_add]
  interval_cases k <;> simp [tailByte]

/-- One byte more adds to its word, at its place there, and to no other word. -/
theorem le32_tailByte_succ (byte : Nat → Byte) (p r q : Nat) :
    le32 (tailByte byte p (r + 1)) (4 * q) =
      le32 (tailByte byte p r) (4 * q) + if r / 4 = q then (byte (p + r)).setWidth 32 <<< (8 * (r % 4)) else 0 := by
  split_ifs with hq
  · subst hq
    have h := le32_tailByte_succ_self byte p (r / 4) (Nat.mod_lt r (by decide))
    rwa [Nat.div_add_mod] at h
  · refine (le32_congr fun k hk => ?_).trans (BitVec.add_zero _).symm
    have hlt : 4 * q + k < r + 1 ↔ 4 * q + k < r := by omega
    simp only [tailByte, hlt]

/-- The words of a tail of `r` bytes, added to `t`. -/
def addTail (byte : Nat → Byte) (p r : Nat) (t : Words) : Words :=
  ⟨t.a + le32 (tailByte byte p r) (4 * 0), t.b + le32 (tailByte byte p r) (4 * 1), t.c + le32 (tailByte byte p r) (4 * 2)⟩

theorem addTail_zero (byte : Nat → Byte) (p : Nat) (t : Words) : addTail byte p 0 t = t := by
  simp [addTail, le32_tailByte_zero]

/-- A pass of the loop of R66 is one byte more of the tail; byte `r` belongs to word `r` div 4. -/
theorem addTailByte_addTail (byte : Nat → Byte) (p : Nat) {r : Nat} (t : Words) (hr : r < 12) :
    addTailByte (byte (p + r)) r (addTail byte p r t) = addTail byte p (r + 1) t := by
  rw [addTail, addTail, le32_tailByte_succ, le32_tailByte_succ, le32_tailByte_succ]
  obtain hq | hq | hq : r / 4 = 0 ∨ r / 4 = 1 ∨ r / 4 = 2 := by omega
  all_goals simp [addTailByte, hq, BitVec.add_assoc]

theorem tailacc_eq_addTail (byte : Nat → Byte) (p : Nat) {r : Nat} (t : Words) (hr : r ≤ 12) :
    tailacc byte p r t = addTail byte p r t := by
  induction r with
  | zero => exact (addTail_zero byte p t).symm
  | succ r ih => rw [tailacc, ih (Nat.le_of_succ_le hr), addTailByte_addTail byte p t hr]

/-- Settles O39, by induction on the passes of the loop. -/
theorem tailBytesAddAsLittleEndianWords : Obligations.TailBytesAddAsLittleEndianWords :=
  fun byte p _ t hr => tailacc_eq_addTail byte p t hr

/-! ## What `jhash` reads (R73) -/

section
variable {byte byte' : Nat → Byte} {p p' : Nat}

theorem addBlock_congr (h : ∀ j, j < 12 → byte (p + j) = byte' (p' + j)) (t : Words) :
    addBlock byte p t = addBlock byte' p' t := by
  have hword : ∀ i, i ≤ 8 → le32 byte (p + i) = le32 byte' (p' + i) := fun i hi =>
    le32_congr fun k hk => by simpa only [Nat.add_assoc] using h (i + k) (by omega)
  have h0 : le32 byte p = le32 byte' p' := hword 0 (by decide)
  rw [addBlock, addBlock, h0, hword 4 (by decide), hword 8 (by decide)]

theorem tailacc_congr {r : Nat} (h : ∀ j, j < r → byte (p + j) = byte' (p' + j)) (t : Words) :
    tailacc byte p r t = tailacc byte' p' r t := by
  induction r with
  | zero => rfl
  | succ r ih => rw [tailacc, tailacc, h r (Nat.lt_succ_self r), ih fun j hj => h j (Nat.lt_succ_of_lt hj)]

theorem tailWords_congr {r : Nat} (h : ∀ j, j < r → byte (p + j) = byte' (p' + j)) (t : Words) :
    tailWords byte p r t = tailWords byte' p' r t := by
  rw [tailWords, tailWords, tailacc_congr h]

end

theorem jhashLoop_tail (key : Nat → Byte) (fuel o : Nat) {r : Nat} (t : Words) (hr : r ≤ 12) :
    jhashLoop key fuel o r t = tailWords key o r t := by
  cases fuel with
  | zero => rfl
  | succ fuel => exact if_neg (Nat.not_lt.2 hr)

theorem jhashLoop_block (key : Nat → Byte) (fuel o : Nat) {r : Nat} (t : Words) (hr : 12 < r) :
    jhashLoop key (fuel + 1) o r t = jhashLoop key fuel (o + 12) (r - 12) (mix (addBlock key o t)) :=
  if_pos hr

/-- The loop depends on the `r` bytes at its offset alone, wherever they stand. -/
theorem jhashLoop_congr {key key' : Nat → Byte} {fuel o o' r : Nat} (h : ∀ j, j < r → key (o + j) = key' (o' + j))
    (t : Words) : jhashLoop key fuel o r t = jhashLoop key' fuel o' r t := by
  induction fuel generalizing o o' r t with
  | zero => exact tailWords_congr h t
  | succ fuel ih =>
    rcases Nat.lt_or_ge 12 r with hr | hr
    · rw [jhashLoop_block _ _ _ _ hr, jhashLoop_block _ _ _ _ hr, addBlock_congr fun j hj => h j (hj.trans hr)]
      exact ih (fun j hj => by simpa only [Nat.add_assoc] using h (12 + j) (by omega)) _
    · rw [jhashLoop_tail _ _ _ _ hr, jhashLoop_tail _ _ _ _ hr, tailWords_congr h]

theorem jhashWords_congr {key key' : Nat → Byte} {n : Word} (h : ∀ j, j < n.toNat → key j = key' j) (seed : Word) :
    jhashWords key n seed = jhashWords key' n seed :=
  jhashLoop_congr (fun j hj => by simpa only [Nat.zero_add] using h j hj) _

/-- Settles O41: the empty key is an empty tail, and a loop depends on the bytes left alone. -/
theorem jhashReadsOnlyItsKey : Obligations.JhashReadsOnlyItsKey := by
  refine ⟨fun key seed => ?_, fun key key' n seed h => by rw [jhash, jhash, jhashWords_congr h]⟩
  calc jhash key 0 seed
    _ = iv 0 seed := rfl
    _ = 0xdeadbeef + seed := by simp [iv]

end Sys2Proof.Machine
end


section
/-!
Whole commands of 41_hash.md: a run of HASH from its body to its end (R70, R72), held against `jhash` (R71) and against INIT, BLOCK and TAIL issued
one after the other; and the bound on every pending command (R75, R113).
-/
namespace Sys2Proof.Machine

/-! ## Runs -/

theorem coreRun_succ (M : Host.Core) {s t : M.State} (h : M.step s = .next t) (k : Nat) : M.run (k + 1) s = M.run k t := by
  rw [Host.Core.run, h]

theorem run_succ {s t : State} (h : step s = .next t) (k : Nat) : core.run (k + 1) s = core.run k t :=
  coreRun_succ core h k

theorem issue_next {i : Instr} {s t u : State} (ha : exec i s = .next t) (hs : exec i t = .next u) : issue i s = .next u := by
  rw [issue, ha]
  exact hs

theorem issueAll_cons {i : Instr} {s t : State} (h : issue i s = .next t) (rest : List Instr) :
    issueAll (i :: rest) s = issueAll rest t := by
  rw [issueAll, h]

/-- With no event left the step is the engine's, which runs the pending command. -/
theorem step_pending {s : State} {i : Instr} (hi : s.inbox = []) (hp : pendingInstr s.pend = some i) : step s = exec i s := by
  rw [step_nil hi, engineTurn, hp]

/-! ## The body of HASH -/

theorem nblocks_tail {n : Nat} (hn : n ≤ 12) : nblocks n = 0 :=
  Nat.div_eq_of_lt (by omega)

theorem nblocks_block {n : Nat} (hn : 12 < n) : nblocks n = nblocks (n - 12) + 1 := by
  unfold nblocks
  omega

/-- HASH is in its body and the engine moves alone: the words `w` are there, the session is open, and the bytes left lie in the key memory. -/
structure InHash (s : State) (w : Words) : Prop where
  pend : s.pend = .hashBody
  inbox : s.inbox = []
  words : s.words = some w
  active : s.active = true
  done : s.done = false
  inside : s.cur.toNat + s.rem.toNat ≤ s.kmem.size

theorem nfinals_block {n : Nat} (hn : 12 < n) : nfinals n = nfinals (n - 12) := by
  simp [nfinals, Nat.sub_eq_zero_iff_le, Nat.ne_of_gt (Nat.zero_lt_of_lt hn), hn]

/-- The words after a BLOCK step (R68). -/
def blockWords (s : State) (w : Words) : Words := mix (addBlock s.kmem.byte s.cur.toNat w)

namespace InHash
variable {s : State} {w : Words}

theorem block_cursor (h : InHash s w) (hr : 12 < s.rem.toNat) :
    (s.cur + 12).toNat = s.cur.toNat + 12 ∧ (s.rem - 12).toNat = s.rem.toNat - 12 := by
  obtain ⟨hc, hm⟩ := cursor_of_block hr (h.inside.trans s.kmem.size_le)
  exact ⟨hc, by omega⟩

theorem block_inside (h : InHash s w) (hr : 12 < s.rem.toNat) : s.cur.toNat + 12 ≤ s.kmem.size :=
  (Nat.add_le_add_left hr.le _).trans h.inside

theorem step_block (h : InHash s w) (hr : 12 < s.rem.toNat) : step s = .next (absorbBlock w s) := by
  rw [step_pending h.inbox (by rw [h.pend]; rfl)]
  exact exec_hash_block h.pend hr h.words (h.block_inside hr)

theorem step_tail (h : InHash s w) (hr : s.rem.toNat ≤ 12) : step s = .next (absorbTail w s).finish := by
  rw [step_pending h.inbox (by rw [h.pend]; rfl)]
  exact exec_hash_tail h.pend hr h.words h.inside

theorem absorbBlock (h : InHash s w) (hr : 12 < s.rem.toNat) : InHash (absorbBlock w s) (blockWords s w) where
  pend := h.pend
  inbox := h.inbox
  words := rfl
  active := h.active
  done := h.done
  inside := by
    obtain ⟨hc, hm⟩ := h.block_cursor hr
    have hin := h.inside
    simp only [absorbBlock_cur, absorbBlock_rem, absorbBlock_kmem]
    omega

theorem nblocks_absorbBlock (h : InHash s w) (hr : 12 < s.rem.toNat) :
    nblocks s.rem.toNat = nblocks (Machine.absorbBlock w s).rem.toNat + 1 := by
  rw [absorbBlock_rem, (h.block_cursor hr).2]
  exact nblocks_block hr

/-- HASH's body is BLOCK steps while REM > 12 and then one TAIL step: the induction is on the number of blocks left. -/
theorem induct {P : (s : State) → (w : Words) → InHash s w → Prop}
    (tail : ∀ s w (h : InHash s w), s.rem.toNat ≤ 12 → P s w h)
    (block : ∀ s w (h : InHash s w) (hr : 12 < s.rem.toNat), P (Machine.absorbBlock w s) (blockWords s w) (h.absorbBlock hr) → P s w h)
    (s : State) (w : Words) (h : InHash s w) : P s w h := by
  induction hn : nblocks s.rem.toNat generalizing s w with
  | zero =>
    refine tail s w h (Nat.not_lt.1 fun hr => ?_)
    rw [nblocks_block hr] at hn
    cases hn
  | succ n ih =>
    have hr : 12 < s.rem.toNat := Nat.not_le.1 fun hr => by
      rw [nblocks_tail hr] at hn
      cases hn
    refine block s w h hr (ih _ _ _ ?_)
    rw [h.nblocks_absorbBlock hr] at hn
    exact Nat.succ.inj hn

/-- Before its last step HASH is pending (R70, R75). -/
theorem run_pending (h : InHash s w) {k : Nat} (hk : k ≤ nblocks s.rem.toNat) :
    ∃ v : State, core.run k s = .next v ∧ v.pend ≠ .none := by
  induction s, w, h using induct generalizing k with
  | tail s w h hr =>
    rw [nblocks_tail hr, Nat.le_zero] at hk
    subst hk
    exact ⟨s, rfl, by simp [h.pend]⟩
  | block s w h hr ih =>
    cases k with
    | zero => exact ⟨s, rfl, by simp [h.pend]⟩
    | succ k =>
      rw [run_succ (h.step_block hr)]
      rw [h.nblocks_absorbBlock hr] at hk
      exact ih (Nat.le_of_succ_le_succ hk)

end InHash

/-- What the rest of a HASH in its body leaves in `u`: the words of `jhash`'s loop over the bytes left, the counts of R72, a closed session. -/
structure HashEnd (s : State) (w : Words) (u : State) : Prop where
  words : ∀ fuel, s.rem.toNat ≤ fuel → u.words = some (jhashLoop s.kmem.byte fuel s.cur.toNat s.rem.toNat w)
  rem : u.rem = 0
  cur : u.cur = s.cur + s.rem
  nmix : u.nmix = s.nmix + BitVec.ofNat 32 (nblocks s.rem.toNat)
  nfin : u.nfin = s.nfin + BitVec.ofNat 32 (nfinals s.rem.toNat)
  active : u.active = false
  done : u.done = true
  pend : u.pend = .none
  err : u.err = s.err
  ecode : u.ecode = s.ecode
  ovr : u.ovr = s.ovr
  host : SameHostSide s u

theorem HashEnd.tail {s : State} (w : Words) (hr : s.rem.toNat ≤ 12) : HashEnd s w (absorbTail w s).finish where
  words fuel _ := by rw [jhashLoop_tail _ _ _ _ hr]; rfl
  rem := rfl
  cur := rfl
  nmix := by rw [nblocks_tail hr]; exact (BitVec.add_zero _).symm
  nfin := by
    by_cases h0 : s.rem.toNat = 0
    · simp [nfinals, h0]
    · simp [nfinals, h0, Nat.one_le_iff_ne_zero]
  active := rfl
  done := rfl
  pend := rfl
  err := rfl
  ecode := rfl
  ovr := rfl
  host := ⟨rfl, rfl, rfl, rfl, rfl, rfl, rfl⟩

theorem HashEnd.block {s u : State} {w : Words} (h : InHash s w) (hr : 12 < s.rem.toNat)
    (e : HashEnd (absorbBlock w s) (blockWords s w) u) : HashEnd s w u where
  words fuel hf := by
    obtain ⟨hc, hm⟩ := h.block_cursor hr
    cases fuel with
    | zero => omega
    | succ fuel =>
      rw [jhashLoop_block _ _ _ _ hr, ← hc, ← hm]
      exact e.words fuel (by rw [absorbBlock_rem, hm]; omega)
  rem := e.rem
  cur := by
    rw [e.cur, absorbBlock_cur, absorbBlock_rem]
    bv_omega
  nmix := by
    rw [e.nmix, h.nblocks_absorbBlock hr, BitVec.ofNat_add, absorbBlock_nmix]
    ac_rfl
  nfin := by rw [e.nfin, absorbBlock_rem, (h.block_cursor hr).2, ← nfinals_block hr, absorbBlock_nfin]
  active := e.active
  done := e.done
  pend := e.pend
  err := e.err
  ecode := e.ecode
  ovr := e.ovr
  host := ⟨e.host.kmem, e.host.len, e.host.seed, e.host.kaddr, e.host.inbox, e.host.answer, e.host.freeReads⟩

namespace InHash
variable {s : State} {w : Words}

theorem run_ends (h : InHash s w) : ∃ u : State, core.run (nblocks s.rem.toNat + 1) s = .next u ∧ HashEnd s w u := by
  induction s, w, h using induct with
  | tail s w h hr =>
    rw [nblocks_tail hr, run_succ (h.step_tail hr)]
    exact ⟨_, rfl, .tail w hr⟩
  | block s w h hr ih =>
    obtain ⟨u, hrun, hend⟩ := ih
    rw [h.nblocks_absorbBlock hr, run_succ (h.step_block hr)]
    exact ⟨u, hrun, .block h hr hend⟩

/-! ## BLOCK and TAIL issued one after the other -/

/-- Between two commands of the step-by-step sequence the state is HASH's but for PEND, which is none. A BLOCK there makes HASH's own step. -/
theorem issue_block (h : InHash s w) (hr : 12 < s.rem.toNat) : issue .block s.finish = .next (Machine.absorbBlock w s).finish := by
  have hstart : s.finish.start .block = { s with pend := .block } := by simp [State.start, State.finish, h.done]
  have haccept := exec_block_accepts (s := s.finish) rfl h.active hr
  rw [hstart] at haccept
  exact issue_next haccept (exec_block_step rfl h.words (h.block_inside hr))

theorem issue_tail (h : InHash s w) (hr : s.rem.toNat ≤ 12) : issue .tail s.finish = .next (absorbTail w s).finish :=
  issue_next (exec_tail_accepts rfl h.active hr) (exec_tail_step rfl h.words h.inside)

theorem issueAll_eq_run (h : InHash s w) :
    issueAll (List.replicate (nblocks s.rem.toNat) .block ++ [.tail]) s.finish = core.run (nblocks s.rem.toNat + 1) s := by
  induction s, w, h using induct with
  | tail s w h hr =>
    rw [nblocks_tail hr, run_succ (h.step_tail hr)]
    exact issueAll_cons (h.issue_tail hr) []
  | block s w h hr ih =>
    rw [h.nblocks_absorbBlock hr, run_succ (h.step_block hr), List.replicate_succ, List.cons_append,
      issueAll_cons (h.issue_block hr), ih]

end InHash

/-! ## The whole command -/

/-- The state after HASH's INIT step (R70). -/
def State.opened (s : State) : State := { initBody (s.start .hashInit) with pend := .hashBody }

/-- The three words at the start of a session (R67). -/
def State.ivWords (s : State) : Words := ⟨iv s.len s.seed, iv s.len s.seed, iv s.len s.seed⟩

section
variable {s : State}

theorem inHash_opened (hi : s.inbox = []) (hin : s.kaddr.toNat + s.len.toNat ≤ s.kmem.size) : InHash s.opened s.ivWords :=
  ⟨rfl, hi, rfl, rfl, rfl, hin⟩

theorem run_opened (hi : s.inbox = []) (k : Nat) : core.run (k + 1) (s.start .hashInit) = core.run k s.opened :=
  run_succ ((step_pending (s := s.start .hashInit) hi rfl).trans (exec_hash_init rfl)) k

/-- The loop over the key memory from KADDR is the loop over the key (R34). -/
theorem HashEnd.jhashWords {u : State} (e : HashEnd s.opened s.ivWords u) : u.words = some (jhashWords s.key s.len s.seed) := by
  rw [e.words s.len.toNat (Nat.le_refl _), Machine.jhashWords]
  exact congrArg some (jhashLoop_congr (fun j _ => by rw [Nat.zero_add]; rfl) _)

theorem run_hash (hi : s.inbox = []) (hin : s.kaddr.toNat + s.len.toNat ≤ s.kmem.size) :
    ∃ u : State, core.run (2 + nblocks s.len.toNat) (s.start .hashInit) = .next u ∧ HashEnd s.opened s.ivWords u := by
  rw [Nat.add_comm 2, run_opened hi]
  exact (inHash_opened hi hin).run_ends

theorem run_hash_pending (hi : s.inbox = []) (hin : s.kaddr.toNat + s.len.toNat ≤ s.kmem.size) {k : Nat}
    (hk : k < 2 + nblocks s.len.toNat) : ∃ v : State, core.run k (s.start .hashInit) = .next v ∧ v.pend ≠ .none := by
  cases k with
  | zero => exact ⟨_, rfl, by simp⟩
  | succ k =>
    rw [run_opened hi]
    exact (inHash_opened hi hin).run_pending (by change k ≤ nblocks s.len.toNat; omega)

end

/-- Settles O42, by induction on the blocks of the key. -/
theorem hashComputesJhash : Obligations.HashComputesJhash := by
  intro s hp hi hin
  obtain ⟨u, hrun, e⟩ := run_hash hi hin
  obtain ⟨-, -, hc⟩ := (State.words_eq_some _ _).1 e.jhashWords
  exact ⟨s.start .hashInit, u, exec_hash_accepts hp hin, fun k hk => run_hash_pending hi hin hk, hrun, hc, e.pend, e.done, e.active, e.rem,
    e.cur, e.nmix.trans (BitVec.zero_add _), e.nfin.trans (BitVec.zero_add _), e.host.len, e.host.seed, e.host.kaddr, e.err,
    e.ecode, e.ovr, e.host.kmem⟩

/-- Settles O43: INIT opens the session that HASH's first step opens, and from there each BLOCK and TAIL makes HASH's own step. -/
theorem stepwiseSequenceEqualsHash : Obligations.StepwiseSequenceEqualsHash := by
  intro s hp hi hin
  obtain ⟨u, hrun, -⟩ := run_hash hi hin
  have hinit : issue .init s = .next s.opened.finish := issue_next (exec_init_accepts hp hin) (exec_init_step rfl)
  refine ⟨_, u, exec_hash_accepts hp hin, hrun, ?_⟩
  rw [Nat.add_comm 2, run_opened hi] at hrun
  rw [stepwise, issueAll_cons hinit]
  exact (inHash_opened hi hin).issueAll_eq_run.trans hrun

/-- Settles O44: both runs end with the words of one `jhash`, which reads its key alone. -/
theorem hashDependsOnlyOnLengthSeedAndKey : Obligations.HashDependsOnlyOnLengthSeedAndKey := by
  intro s s' hp hp' hi hi' hin hin' hlen hseed hkey
  obtain ⟨u, hrun, e⟩ := run_hash hi hin
  obtain ⟨u', hrun', e'⟩ := run_hash hi' hin'
  have hwords : u.words = some (jhashWords s'.key s'.len s'.seed) := by rw [e.jhashWords, jhashWords_congr hkey, hlen, hseed]
  obtain ⟨ha, hb, hc⟩ := (State.words_eq_some _ _).1 hwords
  obtain ⟨ha', hb', hc'⟩ := (State.words_eq_some _ _).1 e'.jhashWords
  refine ⟨_, u, _, u', exec_hash_accepts hp hin, hrun, exec_hash_accepts hp' hin', hlen ▸ hrun', ha.trans ha'.symm, hb.trans hb'.symm,
    hc.trans hc'.symm, ?_, ?_, e.rem.trans e'.rem.symm⟩
  · rw [e.nmix, e'.nmix]
    simp [State.opened, hlen]
  · rw [e.nfin, e'.nfin]
    simp [State.opened, hlen]

/-! ## The bound on every pending command (R75, R113) -/

theorem State.Inv.words {s : State} (h : s.Inv) (hs : s.active = true) : ∃ w, s.words = some w :=
  (State.wordsOk_iff s).1 (h.session hs).1

/-- Under the invariant the engine's turn does not stop: the pending command's check has left it its operands (R92). -/
theorem State.Inv.engineTurn_completes {s : State} (h : s.Inv) : ∃ t, engineTurn s = .next t := by
  have hok := h.pending
  unfold engineTurn
  cases hp : s.pend with
  | none => exact ⟨s, rfl⟩
  | init => exact ⟨_, exec_init_step hp⟩
  | hashInit => exact ⟨_, exec_hash_init hp⟩
  | block =>
    obtain ⟨hs, hr⟩ := h.blockStep_session (.inl hp)
    obtain ⟨w, hw⟩ := h.words hs
    have hin := h.inside hs
    exact ⟨_, exec_block_step hp hw (by omega)⟩
  | tail =>
    have hs := h.tailStep_session (.inl hp)
    obtain ⟨w, hw⟩ := h.words hs
    exact ⟨_, exec_tail_step hp hw (h.inside hs)⟩
  | hashBody =>
    have hs : s.active = true := by simpa [State.pendOk, hp] using hok
    obtain ⟨w, hw⟩ := h.words hs
    have hin := h.inside hs
    rcases Nat.lt_or_ge 12 s.rem.toNat with hr | hr
    · exact ⟨_, exec_hash_block hp hr hw (by omega)⟩
    · exact ⟨_, exec_hash_tail hp hr hw hin⟩
  | mix =>
    obtain ⟨w, hw⟩ := (State.wordsOk_iff s).1 (by simpa [State.pendOk, hp] using hok)
    exact ⟨_, (command_steps hp).trans (roundStep_eq hw)⟩
  | final =>
    obtain ⟨w, hw⟩ := (State.wordsOk_iff s).1 (by simpa [State.pendOk, hp] using hok)
    exact ⟨_, (command_steps hp).trans (roundStep_eq hw)⟩
  | rotl x sh =>
    obtain ⟨v, hv⟩ := Option.isSome_iff_exists.1 (show (s.word x).isSome = true by simpa [State.pendOk, State.wordOk, hp] using hok)
    exact ⟨_, exec_rotl_steps x sh hp hv⟩

/-- How many steps of the engine a pending command still takes (R75). -/
def State.stepsLeft (s : State) : Nat :=
  match s.pend with
  | .none => 0
  | .hashInit => 2 + nblocks s.len.toNat
  | .hashBody => 1 + nblocks s.rem.toNat
  | _ => 1

theorem State.stepsLeft_le (s : State) : s.stepsLeft ≤ 2 + (s.len.toNat + s.rem.toNat) / 12 := by
  unfold State.stepsLeft nblocks
  split <;> omega

theorem State.pend_of_stepsLeft {s : State} (h : s.stepsLeft = 0) : s.pend = .none := by
  unfold State.stepsLeft at h
  split at h
  · assumption
  all_goals omega

/-- Each step of the engine leaves its command one step fewer: HASH's INIT step leaves the blocks of LEN, its BLOCK step one block fewer. -/
theorem EngineMove.stepsLeft {s t : State} (hm : EngineMove s t) : s.stepsLeft = t.stepsLeft + 1 := by
  cases hm with
  | hashInit hp =>
    simp only [State.stepsLeft, hp, initBody_rem]
    omega
  | hashBlock hp hr w =>
    have hrem : (s.rem - 12).toNat = s.rem.toNat - 12 := by bv_omega
    simp only [State.stepsLeft, absorbBlock_pend, hp, absorbBlock_rem, hrem, nblocks_block hr]
    omega
  | hashTail hp hr => simp [State.stepsLeft, hp, nblocks_tail hr]
  | init hp | block hp | tail hp | mix hp | final hp | rotl _ _ hp => simp [State.stepsLeft, hp]

/-- When the engine moves alone its pending command ends after exactly the steps it has left. -/
theorem run_stepsLeft {s : State} (h : s.Inv) (hi : s.inbox = []) :
    ∃ t : State, core.run s.stepsLeft s = .next t ∧ t.pend = .none := by
  induction hn : s.stepsLeft generalizing s with
  | zero => exact ⟨s, rfl, State.pend_of_stepsLeft hn⟩
  | succ n ih =>
    obtain ⟨t, ht⟩ := h.engineTurn_completes
    rcases engineTurn_next ht with ⟨hp, -⟩ | ⟨-, hm⟩
    · simp [State.stepsLeft, hp] at hn
    · rw [run_succ ((step_nil hi).trans ht)]
      exact ih (hm.inv h) (hm.sameHostSide.inbox.trans hi) (Nat.succ.inj (hm.stepsLeft.symm.trans hn))

/-- Settles O45, by induction on the steps left. -/
theorem everyPendingCommandEnds : Obligations.EveryPendingCommandEnds := by
  intro s h hi
  obtain ⟨t, hrun, hp⟩ := run_stepsLeft h hi
  exact ⟨s.stepsLeft, t, s.stepsLeft_le, hrun, hp⟩

end Sys2Proof.Machine
end


section
/-!
The frame of the commands of 41_hash.md, the mark of U2 (log 4) included.
-/
namespace Sys2Proof.Machine

theorem Memory.written_eq_false_iff (m : Memory) (p n : Nat) :
    m.written p n = false ↔ ∃ j, j < n ∧ m.read (p + j) = none := by
  rw [← Bool.not_eq_true', Memory.not_written_iff]

/-- Settles O49: a command of the family is accepted, is dropped, or takes one of its steps, whose updates are read off field by field. -/
theorem hashCommandsFrame : Obligations.HashCommandsFrame := by
  intro i s t h hi
  by_cases hidle : s.pend = .none
  · have hm := exec_accept hidle h
    have hd := hm.done
    obtain ⟨d, p, e, c, rfl⟩ := hm.frame
    refine ⟨fun _ => ⟨rfl, rfl, rfl, rfl, rfl, rfl, rfl, rfl, rfl, fun hne => ?_⟩, by simp [hidle]⟩
    obtain ⟨hf, hit, -⟩ := hd.resolve_left hne
    exact ⟨hf, hit⟩
  · refine ⟨fun h0 => absurd h0 hidle, ?_⟩
    rcases exec_pending hidle h with ⟨hown, rfl⟩ | ⟨hown, hm⟩
    · have hother : ∀ {j p}, i = j → s.pend = p → pendingInstr p ≠ some j := by
        rintro _ _ rfl rfl
        exact hown
      refine ⟨fun _ => ⟨rfl, rfl⟩, fun hi hp => absurd rfl (hother hi hp), fun hi hp => absurd rfl (hother hi hp),
        fun hi hp => absurd rfl (hother hi hp), ?_, fun hi hp => absurd rfl (hother hi hp), ?_, ?_, fun hne => absurd rfl hne⟩
      · rintro hi (hp | hp) <;> exact absurd rfl (hother hi hp)
      · rintro (⟨hi, hp⟩ | ⟨hi, hp, -⟩) <;> exact absurd rfl (hother hi hp)
      · rintro (⟨hi, hp⟩ | ⟨hi, hp, -⟩) <;> exact absurd rfl (hother hi hp)
    · cases hm with
      | init hp | hashInit hp | block hp | tail hp =>
        rw [hp] at hown
        obtain rfl := Option.some.inj hown
        simp [hp, Memory.written_eq_false_iff]
      | hashBlock hp hr | hashTail hp hr =>
        rw [hp] at hown
        obtain rfl := Option.some.inj hown
        simp [hp, hr, Memory.written_eq_false_iff]
      | mix hp | final hp | rotl _ _ hp =>
        rw [hp] at hown
        obtain rfl := Option.some.inj hown
        simp at hi

end Sys2Proof.Machine
end


section
/-!
The host's transactions (42_host_interface.md): one equation per kind of event, from which the rules of R76 to R82 are read off; what a transaction
leaves of a pending command (R42); and the end of every `wait` (R85).
-/
namespace Sys2Proof.Machine

theorem State.not_busy_of_idle {s : State} (hp : s.pend = .none) : ¬ s.busy = true := fun hb => (State.busy_iff s).1 hb hp

theorem State.busy_of_pending {s : State} (hp : s.pend ≠ .none) : s.busy = true := (State.busy_iff s).2 hp

/-! ## Reads (R76) -/

/-- The column of values of R13's register map, by index. -/
def State.regColumn (s : State) : List (Option Word) :=
  [some 0, some s.status, some s.len, some s.seed, some s.kaddr, s.a, s.b, s.c, some s.rem, some s.cur, some s.nmix, some s.nfin,
    some 0, some 0, some 0, some 0]

theorem State.regValue_eq_regColumn (s : State) (r : Reg) : s.regValue r = s.regColumn.getD r.index.toNat none := by
  cases r <;> rfl

theorem State.regValue_ofIndex (s : State) (idx : BitVec 4) : s.regValue (Reg.ofIndex idx) = s.regColumn.getD idx.toNat none := by
  rw [s.regValue_eq_regColumn, Reg.index_ofIndex]

theorem hostRead_present {s : State} {idx : BitVec 4} {v : Word} (hv : s.regValue (Reg.ofIndex idx) = some v) :
    hostRead idx s = { s with answer := some ⟨idx, v, false⟩ } := by
  simp [hostRead, hv]

/-- A read touches the model's own fields of the host's side alone. -/
theorem hostRead_frame (idx : BitVec 4) (s : State) : ∃ ans n, hostRead idx s = { s with answer := ans, freeReads := n } := by
  cases hv : s.regValue (Reg.ofIndex idx) with
  | none => exact ⟨_, _, hostRead_missing hv⟩
  | some v => exact ⟨_, s.freeReads, hostRead_present hv⟩

/-- Settles O20: the register's value is its entry in the column of R13. -/
theorem registerReadsAnswerTheRegister : Obligations.RegisterReadsAnswerTheRegister := by
  intro s rest idx v hi hv
  have hreg : State.regValue { s with inbox := rest } (Reg.ofIndex idx) = some v := (State.regValue_ofIndex _ idx).trans hv.symm
  rw [step_cons hi, handle, hostRead_present hreg]

/-! ## `wait` (R85) -/

section
variable {s : State} {rest : List Event}

theorem hostWait_idle (hp : s.pend = .none) : hostWait s = { s with answer := some ⟨1, s.status, false⟩ } :=
  if_neg (State.not_busy_of_idle hp)

theorem hostWait_busy (hp : s.pend ≠ .none) :
    hostWait s = { s with inbox := .engine :: .wait :: s.inbox, answer := some ⟨1, s.status, false⟩ } :=
  if_pos (State.busy_of_pending hp)

theorem step_wait_idle (hi : s.inbox = .wait :: rest) (hp : s.pend = .none) :
    step s = .next { s with inbox := rest, answer := some ⟨1, s.status, false⟩ } :=
  (step_cons hi).trans (congrArg Host.Outcome.next (hostWait_idle hp))

theorem step_wait_busy (hi : s.inbox = .wait :: rest) (hp : s.pend ≠ .none) :
    step s = .next { s with inbox := .engine :: .wait :: rest, answer := some ⟨1, s.status, false⟩ } :=
  (step_cons hi).trans (congrArg Host.Outcome.next (hostWait_busy hp))

/-- While a command is pending, two steps of a `wait` are a read of STATUS and a step of the engine; then the wait goes on. -/
theorem wait_turn (h : s.Inv) (hi : s.inbox = .wait :: rest) (hp : s.pend ≠ .none) :
    ∃ u t : State, step s = .next u ∧ step u = .next t ∧ t.Inv ∧ t.inbox = .wait :: rest ∧ s.stepsLeft = t.stepsLeft + 1 := by
  have hread : State.Inv { s with inbox := .wait :: rest, answer := some ⟨1, s.status, false⟩ } := h.host _ _ s.freeReads s.ovr
  obtain ⟨t, ht⟩ := hread.engineTurn_completes
  obtain ⟨-, hm⟩ := (engineTurn_next ht).resolve_left fun hidle => hp hidle.1
  exact ⟨_, t, step_wait_busy hi hp, ht, hm.inv hread, hm.sameHostSide.inbox, hm.stepsLeft⟩

/-- A `wait` takes two steps for each step that the pending command has left, and a last read of STATUS. -/
theorem run_wait (h : s.Inv) (hi : s.inbox = .wait :: rest) :
    ∃ t : State, core.run (2 * s.stepsLeft + 1) s = .next t ∧ t.pend = .none ∧ t.inbox = rest := by
  induction hn : s.stepsLeft generalizing s with
  | zero =>
    have hp := State.pend_of_stepsLeft hn
    exact ⟨_, run_succ (step_wait_idle hi hp) 0, hp, rfl⟩
  | succ n ih =>
    have hp : s.pend ≠ .none := fun hp => by simp [State.stepsLeft, hp] at hn
    obtain ⟨u, t, hread, hturn, ht, hti, hleft⟩ := wait_turn h hi hp
    rw [Nat.mul_succ, run_succ hread, run_succ hturn]
    exact ih ht hti (Nat.succ.inj (hleft.symm.trans hn))

end

/-- Settles O46, by induction on the steps that the pending command has left. -/
theorem everyWaitEnds : Obligations.EveryWaitEnds := by
  intro s rest h hi
  obtain ⟨t, hrun, hp, hrest⟩ := run_wait h hi
  exact ⟨_, t, hrun, hp, hrest⟩

/-- Settles O23, from the two kinds of step of a `wait`. -/
theorem waitRereadsStatusWhileBusy : Obligations.WaitRereadsStatusWhileBusy :=
  fun _ _ hi => ⟨step_wait_idle hi, step_wait_busy hi⟩

/-! ## No transaction disturbs a running command (R76, R78, R42) -/

theorem State.engineNext_cons {s : State} {e : Event} {rest : List Event} (hi : s.inbox = e :: rest) :
    s.engineNext = true ↔ e = .engine := by
  cases e <;> simp [State.engineNext, hi]

/-- All that a step changes while a command is pending and the event is the host's: the flags that a STATUS write or a drop touches, and the model's
own fields of the host's side. -/
theorem step_host_frame {s t : State} (h : step s = .next t) (hp : s.pend ≠ .none) (he : ¬ s.engineNext = true)
    (hreset : ∀ rest, s.inbox ≠ .reset :: rest) :
    ∃ d e c o inbox ans n,
      t = { s with done := d, err := e, ecode := c, ovr := o, inbox := inbox, answer := ans, freeReads := n } := by
  cases step_move h with
  | engine _ _ hturn => exact absurd hturn he
  | reset rest hi => exact absurd hi (hreset rest)
  | read idx rest =>
    obtain ⟨ans, n, hread⟩ := hostRead_frame idx { s with inbox := rest }
    exact ⟨_, _, _, _, _, ans, n, hread⟩
  | waitOn rest =>
    obtain ⟨ans, n, hread⟩ := hostRead_frame Reg.status.index s
    rw [hread]
    exact ⟨_, _, _, _, _, ans, n, rfl⟩
  | dropWrite | dropKey | status => exact ⟨_, _, _, _, _, _, _, rfl⟩
  | idle _ _ _ hidle | illegal _ _ _ _ _ _ hidle | accept _ _ _ _ _ _ _ hidle | len _ _ _ _ hidle | seed _ _ _ _ hidle
  | kaddr _ _ _ _ hidle | word _ _ _ _ _ hidle | ignored _ _ _ _ hidle | key _ _ _ _ hidle | waitDone _ _ hidle =>
    exact absurd hidle hp

/-- Settles O56, from the frame of the host's events while a command is pending. -/
theorem hostCannotDisturbARunningCommand : Obligations.HostCannotDisturbARunningCommand := by
  intro s t e rest hp hi hengine hreset h
  have he : ¬ s.engineNext = true := fun he => hengine ((State.engineNext_cons hi).1 he)
  have hnoReset : ∀ rest', s.inbox ≠ .reset :: rest' := fun rest' hi' => hreset (List.cons.inj (hi.symm.trans hi')).1
  obtain ⟨d, er, c, o, inbox, ans, n, rfl⟩ := step_host_frame h hp he hnoReset
  exact ⟨rfl, rfl, rfl, rfl, rfl, rfl, rfl, rfl, rfl, rfl, rfl, rfl, rfl, rfl⟩

/-! ## Commands (R80, R81, R82) -/

/-- Settles O8: it is the rule of a CMD write with nothing pending. -/
theorem stepRunsTheDecodedCommand : Obligations.StepRunsTheDecodedCommand :=
  fun _ _ _ _ hi hp hd => step_command hi hp hd

theorem engineTurn_pending {s : State} {i : Instr} (hp : pendingInstr s.pend = some i) : engineTurn s = exec i s := by
  rw [engineTurn, hp]

theorem engineTurn_idle {s : State} (hp : s.pend = .none) : engineTurn s = .next s := by
  rw [engineTurn, hp, pendingInstr]

/-- Settles O9: each value of PEND names the command whose step is due. -/
theorem engineTurnRunsThePendingCommand : Obligations.EngineTurnRunsThePendingCommand := by
  intro s he
  have turn : ∀ {p : Pend} {i : Instr}, pendingInstr p = some i → s.pend = p → step s = exec i { s with inbox := s.inbox.tail } := by
    rintro p i hi rfl
    exact (step_engineNext he).trans (engineTurn_pending hi)
  refine ⟨fun hp => (step_engineNext he).trans (engineTurn_idle hp), turn rfl, turn rfl, turn rfl, turn rfl, turn rfl, ?_,
    fun _ => turn rfl, fun _ => turn rfl, fun _ => turn rfl⟩
  rintro (hp | hp)
  · exact turn rfl hp
  · exact turn rfl hp

/-- The 32 low bits of a word's number are the word. -/
theorem withFetchWord_eq_offerCommand (s : State) (w : Word) : s.withFetchWord 32 w.toNat = offerCommand w s := by
  rw [State.withFetchWord, BitVec.toNat_mod_cancel, BitVec.ofNat_toNat, BitVec.setWidth_eq]

/-- Settles O10: the placed word is a CMD write with nothing pending, and it decodes to its command. -/
theorem placedWordRunsNext : Obligations.PlacedWordRunsNext := by
  intro s i hwf
  rw [withFetchWord_eq_offerCommand]
  exact step_command (s := offerCommand (encode i) s) rfl rfl (decode_encode hwf)

/-- NOP has no step lines: its accept lines are all of it. -/
theorem exec_nop_eq (s : State) : exec .nop s = offer .next s := rfl

/-- Settles O24: NOP's acceptance answers the state it finds, and no other word of its OP is legal. -/
theorem nopHasNoEffect : Obligations.NopHasNoEffect :=
  ⟨fun s hp => (exec_nop_eq s).trans (if_pos hp), fun s hp => (exec_nop_eq s).trans (if_neg hp), by decide,
    fun _ hop hne => decode_illegal_of_ne hop (by decide) hne⟩

/-! ## Register writes (R77, R78) -/

section
variable {s : State} {idx : BitVec 4} {v : Word} {rest : List Event}

theorem hostWrite_busy (hp : s.pend ≠ .none) (hidx : idx ≠ Reg.status.index) : hostWrite idx v s = .next s.drop :=
  if_pos (by simp [State.busy_of_pending hp, Reg.ofIndex_eq_iff, hidx])

theorem hostWrite_idle (hp : s.pend = .none) : hostWrite idx v s = writeIdle (Reg.ofIndex idx) v s :=
  if_neg (by simp [State.not_busy_of_idle hp])

theorem step_regWrite_busy (hi : s.inbox = .regWrite idx v :: rest) (hp : s.pend ≠ .none) (hidx : idx ≠ Reg.status.index) :
    step s = .next { s with inbox := rest, ovr := true } :=
  (step_cons hi).trans (hostWrite_busy hp hidx)

theorem step_regWrite_idle (hi : s.inbox = .regWrite idx v :: rest) (hp : s.pend = .none) :
    step s = writeIdle (Reg.ofIndex idx) v { s with inbox := rest } :=
  (step_cons hi).trans (hostWrite_idle hp)

end

/-- R28: the indices from 8 on are read-only or reserved. -/
theorem writeIdle_readOnly {r : Reg} (hr : 8 ≤ r.index.toNat) (v : Word) (s : State) : writeIdle r v s = .next s := by
  cases r with
  | cmd | status | len | seed | kaddr | a | b | c => exact absurd hr (by decide)
  | rem | cur | nmix | nfin | rsv12 | rsv13 | rsv14 | rsv15 => rfl

/-- Settles O19: at each index the step is the write of its register. -/
theorem idleRegisterWritesStore : Obligations.IdleRegisterWritesStore := by
  intro s v rest hp
  refine ⟨fun hi => step_regWrite_idle hi hp, fun hi => step_regWrite_idle hi hp, fun hi => step_regWrite_idle hi hp,
    fun hi => step_regWrite_idle hi hp, fun hi => step_regWrite_idle hi hp, fun hi => step_regWrite_idle hi hp, fun idx hidx hi => ?_⟩
  rw [step_regWrite_idle hi hp, writeIdle_readOnly (by rwa [Reg.index_ofIndex])]

/-! ## Key-memory writes (R79, R78) -/

section
variable {s : State} {addr : Word} {v : Byte} {rest : List Event}

theorem hostKeyWrite_busy (hp : s.pend ≠ .none) : hostKeyWrite addr v s = s.drop := if_pos (State.busy_of_pending hp)

theorem hostKeyWrite_idle (hp : s.pend = .none) : hostKeyWrite addr v s = { s with kmem := s.kmem.write addr.toNat v } :=
  if_neg (State.not_busy_of_idle hp)

theorem step_keyWrite_busy (hi : s.inbox = .keyWrite addr v :: rest) (hp : s.pend ≠ .none) :
    step s = .next { s with inbox := rest, ovr := true } :=
  (step_cons hi).trans (congrArg Host.Outcome.next (hostKeyWrite_busy hp))

theorem step_keyWrite_idle (hi : s.inbox = .keyWrite addr v :: rest) (hp : s.pend = .none) :
    step s = .next { s with inbox := rest, kmem := s.kmem.write addr.toNat v } :=
  (step_cons hi).trans (congrArg Host.Outcome.next (hostKeyWrite_idle hp))

end

theorem Memory.write_beyond {m : Memory} {addr : Nat} (h : m.size ≤ addr) (v : Byte) : m.write addr v = m :=
  if_neg (Nat.not_lt.2 h)

theorem Memory.read_write_self {m : Memory} {addr : Nat} (v : Byte) (h : m.wf = true) (ha : addr < m.size) :
    (m.write addr v).read addr = some v := by
  rw [m.read_write addr v addr h, if_pos ⟨ha, rfl⟩]

theorem Memory.read_write_ne {m : Memory} {addr x : Nat} (v : Byte) (h : m.wf = true) (hx : x ≠ addr) :
    (m.write addr v).read x = m.read x := by
  rw [m.read_write addr v x h, if_neg fun hw => hx hw.2]

/-- Settles O22, from what an address reads as after a write of the key memory. -/
theorem keyWriteSetsItsByteAlone : Obligations.KeyWriteSetsItsByteAlone := by
  intro s addr v rest hwf hi
  refine ⟨fun hp ha => ⟨s.kmem.write addr.toNat v, step_keyWrite_idle hi hp, Memory.write_size _ _ _,
    Memory.read_write_self v hwf ha, fun x hx => Memory.read_write_ne v hwf hx⟩, fun hp ha => ?_, fun hp => step_keyWrite_busy hi hp⟩
  rw [step_keyWrite_idle hi hp, Memory.write_beyond ha]

/-- Settles O18: a write is dropped unless it is a STATUS write, which only clears. -/
theorem busyWritesAreDropped : Obligations.BusyWritesAreDropped :=
  fun s rest hp => ⟨fun _ _ hi hidx => step_regWrite_busy hi hp hidx, fun _ _ hi => step_keyWrite_busy hi hp,
    fun v hi => statusWriteOnlyClears s v rest hi⟩

end Sys2Proof.Machine
end

section
/-!
Errors (60_exceptions.md): the check of each command at acceptance (R88 to R91), what a rejection changes (R94), which steps change ERR, ECODE and OVR
(R95, R96), and that under the invariant no event stops the machine (R92).
-/
namespace Sys2Proof.Machine

/-! ## Rejections (R88, R94) -/

/-- ERR and ECODE are as they were. -/
structure SameError (s t : State) : Prop where
  err : t.err = s.err
  ecode : t.ecode = s.ecode

theorem SameError.of_inbox {s t : State} {rest : List Event} (h : SameError { s with inbox := rest } t) : SameError s t :=
  ⟨h.err, h.ecode⟩

/-- `t` is `s` with the first error since ERR was last 0, and nothing else is changed (R94). -/
structure FirstError (s t : State) : Prop where
  clear : s.err = false
  code : t.ecode ≠ .none
  eq : t = { s with err := true, ecode := t.ecode }

theorem FirstError.err {s t : State} (h : FirstError s t) : t.err = true := congrArg State.err h.eq

theorem FirstError.pend {s t : State} (h : FirstError s t) : t.pend = s.pend := (congrArg State.pend h.eq).trans rfl

/-- `raise Error(code)` records the first error only (R94). -/
theorem raiseError_keepsFirst {code : ECode} (hc : code ≠ .none) (s : State) :
    SameError s (raiseError code s) ∨ FirstError s (raiseError code s) := by
  unfold raiseError
  cases herr : s.err with
  | true => exact .inl ⟨rfl, rfl⟩
  | false => exact .inr ⟨herr, hc, rfl⟩

theorem AcceptMove.sameError_or_firstError {s t : State} {i : Instr} (hm : AcceptMove s i t) : SameError s t ∨ FirstError s t := by
  cases hm with
  | reject _ _ hc => exact raiseError_keepsFirst hc s
  | _ => exact .inl ⟨rfl, rfl⟩

theorem EngineMove.sameError {s t : State} (hm : EngineMove s t) : SameError s t := by
  cases hm with
  | rotl x => exact ⟨State.setWord_err s x _, State.setWord_ecode s x _⟩
  | _ => exact ⟨rfl, rfl⟩

/-- The term ROTL with RS = 3 has no accept lines but its rejection (log 14). -/
theorem exec_rotl_noWord (sh : BitVec 5) (s : State) : exec (.rotl 3 sh) s = offer (fun s => .next (raiseError .illegal s)) s := rfl

/-- Settles O15: the accept lines record at most the first error; ROTL with RS = 3 is offered its rejection. -/
theorem rejectionChangesOnlyErrAndEcode : Obligations.RejectionChangesOnlyErrAndEcode := by
  refine ⟨fun s t i hp h hne => ?_, fun s sh hp => (exec_rotl_noWord sh s).trans (if_pos hp)⟩
  rcases (exec_accept hp h).sameError_or_firstError with hsame | hfirst
  · exact absurd hne (not_or.2 ⟨not_not.2 hsame.err, not_not.2 hsame.ecode⟩)
  · exact ⟨hfirst.clear, hfirst.code, hfirst.eq⟩

theorem accept_illegal {w : Word} {why : Illegal} (hd : decode w = .illegal why) (s : State) :
    accept w s = .next (raiseError .illegal s) := by
  rw [accept, hd]

theorem accept_command {w : Word} {i : Instr} (hd : decode w = .command i) (s : State) : accept w s = exec i s := by
  rw [accept, hd]

/-- Settles O11: decoding comes first, and an illegal word runs no accept lines. -/
theorem illegalWordRecordsEIllegal : Obligations.IllegalWordRecordsEIllegal :=
  fun _ _ _ _ hi hp hd => (step_regWrite_idle hi hp).trans (accept_illegal hd _)

/-! ## The checks at acceptance (R89, R90, R91) -/

/-- Settles O12, from the acceptance and the rejection in the rules of INIT and HASH. -/
theorem lengthIsCheckedAtInitAndHash : Obligations.LengthIsCheckedAtInitAndHash := by
  obtain ⟨-, -, initAccepts, initRejects, -⟩ := initFollowsItsRule
  obtain ⟨-, -, hashAccepts, hashRejects, -⟩ := hashRunsTheBodiesOfInitBlockAndTail
  exact fun s hp => ⟨fun hbeyond => ⟨initRejects s hp hbeyond, hashRejects s hp hbeyond⟩,
    fun hin => ⟨initAccepts s hp hin, hashAccepts s hp hin⟩⟩

/-- Settles O13, from the acceptance and the rejection in the rules of BLOCK and TAIL. -/
theorem sequenceIsCheckedAtBlockAndTail : Obligations.SequenceIsCheckedAtBlockAndTail := by
  obtain ⟨-, -, blockAccepts, blockRejects, -⟩ := blockFollowsItsRule
  obtain ⟨-, -, tailAccepts, tailRejects, -⟩ := tailFollowsItsRule
  exact fun s hp => ⟨blockRejects s hp, blockAccepts s hp, tailRejects s hp, tailAccepts s hp⟩

/-- No step but a reset takes a word's value away (R91). -/
theorem step_word_kept {s t : State} (h : step s = .next t) (hreset : ∀ rest, s.inbox ≠ .reset :: rest) (x : WordSel)
    (hs : s.word x ≠ none) : t.word x ≠ none := by
  intro ht
  obtain ⟨rest, hi⟩ := step_word_lost h x (Option.isSome_iff_ne_none.2 hs) (by rw [ht]; rfl)
  exact hreset rest hi

/-- Settles O14, from the rejections in the rules of MIX, FINAL and ROTL, and word by word. -/
theorem missingWordsAreCheckedAtMixerCommands : Obligations.MissingWordsAreCheckedAtMixerCommands := by
  obtain ⟨-, -, -, mixRejects, -⟩ := mixFollowsItsRule
  obtain ⟨-, -, -, finalRejects, -⟩ := finalFollowsItsRule
  obtain ⟨-, -, -, rotlRejects, -⟩ := rotlFollowsItsRule
  exact ⟨fun s hp hmissing => ⟨mixRejects s hp hmissing, finalRejects s hp hmissing⟩, rotlRejects,
    fun s t h hreset => ⟨step_word_kept h hreset .A, step_word_kept h hreset .B, step_word_kept h hreset .C⟩⟩

/-! ## No event stops the machine (R92) -/

section
variable {s : State}

theorem command_completes {own : Pend} {ok : State → Bool} {code : ECode} {begin : State → State}
    {step : State → Host.Outcome State Fault Refusal} (hown : own ≠ .none) (hp : s.pend = .none) :
    ∃ t, command own (fun s => acceptIf (ok s) code begin s) step s = .next t := by
  cases hok : ok s with
  | false => exact ⟨_, command_rejects hown hp hok⟩
  | true => exact ⟨_, command_accepts hown hp hok⟩

/-- RS names a state word, or is 3 (R51). -/
theorem rs_cases (rs : BitVec 2) : rs = 3 ∨ ∃ x : WordSel, rs = x.rs := by
  have hall : ∀ rs : BitVec 2, rs = 3 ∨ rs = WordSel.A.rs ∨ rs = WordSel.B.rs ∨ rs = WordSel.C.rs := by decide
  rcases hall rs with h | h | h | h
  · exact .inl h
  · exact .inr ⟨.A, h⟩
  · exact .inr ⟨.B, h⟩
  · exact .inr ⟨.C, h⟩

/-- With nothing pending every command is accepted or rejected. -/
theorem exec_completes (i : Instr) (hp : s.pend = .none) : ∃ t, exec i s = .next t := by
  cases i with
  | nop => exact ⟨s, (exec_nop_eq s).trans (if_pos hp)⟩
  | init => rw [exec_init_eq]; exact command_completes (by decide) hp
  | block => rw [exec_block_eq]; exact command_completes (by decide) hp
  | tail => rw [exec_tail_eq]; exact command_completes (by decide) hp
  | hash => rw [exec_hash_eq (by simp [hp])]; exact command_completes (by decide) hp
  | mix | final => exact command_completes (by decide) hp
  | rotl rs sh =>
    obtain rfl | ⟨x, rfl⟩ := rs_cases rs
    · exact ⟨_, (exec_rotl_noWord sh s).trans (if_pos hp)⟩
    · rw [exec_rotl]
      exact command_completes (by simp) hp

theorem accept_completes (w : Word) (hp : s.pend = .none) : ∃ t, accept w s = .next t := by
  cases hd : decode w with
  | illegal why => exact ⟨_, accept_illegal hd s⟩
  | command i => rw [accept_command hd]; exact exec_completes i hp

theorem writeIdle_completes (r : Reg) (v : Word) (hp : s.pend = .none) : ∃ t, writeIdle r v s = .next t := by
  cases r with
  | cmd => exact accept_completes v hp
  | _ => exact ⟨_, rfl⟩

theorem hostWrite_status (v : Word) (s : State) : hostWrite Reg.status.index v s = .next (clearStatus v s) :=
  if_neg (by simp)

theorem hostWrite_completes (idx : BitVec 4) (v : Word) (s : State) : ∃ t, hostWrite idx v s = .next t := by
  by_cases hp : s.pend = .none
  · rw [hostWrite_idle hp]
    exact writeIdle_completes _ v hp
  · by_cases hidx : idx = Reg.status.index
    · subst hidx
      exact ⟨_, hostWrite_status v s⟩
    · exact ⟨_, hostWrite_busy hp hidx⟩

/-- The one event that needs the invariant is the engine's turn. -/
theorem State.Inv.handle_completes (h : s.Inv) (e : Event) : ∃ t, handle e s = .next t := by
  cases e with
  | regWrite idx v => exact hostWrite_completes idx v s
  | engine => exact h.engineTurn_completes
  | regRead | keyWrite | reset | wait => exact ⟨_, rfl⟩

end

/-- Settles O4, by cases on the next event. -/
theorem noStepStopsUnderTheInvariant : Obligations.NoStepStopsUnderTheInvariant := by
  intro s h
  cases hi : s.inbox with
  | nil => rw [step_nil hi]; exact h.engineTurn_completes
  | cons e rest => rw [step_cons hi]; exact (h.inbox rest).handle_completes e

/-! ## ERR and ECODE over all steps (R94, R95) -/

theorem clearStatus_sameError {v : Word} (hv : v.getLsbD 2 = false) (s : State) : SameError s (clearStatus v s) :=
  ⟨by rw [clearStatus_err, hv, Bool.not_false, Bool.and_true], by rw [clearStatus_ecode, hv, if_neg Bool.false_ne_true]⟩

theorem clearStatus_clearsError {v : Word} (hv : v.getLsbD 2 = true) (s : State) :
    (clearStatus v s).err = false ∧ (clearStatus v s).ecode = .none :=
  ⟨by rw [clearStatus_err, hv, Bool.not_true, Bool.and_false], by rw [clearStatus_ecode, if_pos hv]⟩

/-- A step leaves ERR and ECODE, records the first error of a CMD write made with nothing pending, or clears both. -/
theorem step_error {s t : State} (h : step s = .next t) :
    SameError s t ∨
    (∃ w rest, s.inbox = .regWrite 0 w :: rest ∧ s.pend = .none ∧ FirstError { s with inbox := rest } t) ∨
    (t.err = false ∧ t.ecode = .none ∧
      ((∃ rest, s.inbox = .reset :: rest) ∨ ∃ v rest, s.inbox = .regWrite 1 v :: rest ∧ v.getLsbD 2 = true)) := by
  cases step_move h with
  | reset rest hi => exact .inr (.inr ⟨rfl, rfl, .inl ⟨rest, hi⟩⟩)
  | status idx v rest hi hr =>
    obtain rfl := (Reg.ofIndex_eq_iff _ _).1 hr
    cases hv : v.getLsbD 2 with
    | false => exact .inl (clearStatus_sameError hv _).of_inbox
    | true =>
      obtain ⟨herr, hecode⟩ := clearStatus_clearsError hv { s with inbox := rest }
      exact .inr (.inr ⟨herr, hecode, .inr ⟨v, rest, hi, hv⟩⟩)
  | illegal idx w _ rest hi hr hp =>
    obtain rfl := (Reg.ofIndex_eq_iff _ _).1 hr
    rcases raiseError_keepsFirst (code := .illegal) (by decide) { s with inbox := rest } with hsame | hfirst
    · exact .inl hsame.of_inbox
    · exact .inr (.inl ⟨w, rest, hi, hp, hfirst⟩)
  | accept idx w i rest _ hi hr hp _ hm =>
    obtain rfl := (Reg.ofIndex_eq_iff _ _).1 hr
    rcases hm.sameError_or_firstError with hsame | hfirst
    · exact .inl hsame.of_inbox
    · exact .inr (.inl ⟨w, rest, hi, hp, hfirst⟩)
  | engine _ _ _ _ _ hm => exact .inl hm.sameError.of_inbox
  | _ => exact .inl (by constructor <;> simp [writeWord])

/-- Settles O58, from the three things a step can do to ERR and ECODE. -/
theorem errorStaysUntilItIsCleared : Obligations.ErrorStaysUntilItIsCleared := by
  intro s t h
  rcases step_error h with hsame | ⟨w, rest, hi, hp, hfirst⟩ | ⟨herr, hecode, hoccasion⟩
  · have herr := hsame.err
    exact ⟨fun h0 h1 => by simp [herr, h0] at h1, fun h1 h0 => by simp [herr, h1] at h0, fun _ _ => hsame.ecode,
      fun hne => absurd hsame.ecode hne⟩
  · have hs : s.err = false := hfirst.clear
    have htp : t.pend = .none := hfirst.pend.trans hp
    exact ⟨fun _ _ => ⟨⟨w, rest, hi⟩, hp, htp, hfirst.code⟩, fun h1 => by simp [hs] at h1, fun h1 => by simp [hs] at h1,
      fun _ => .inl ⟨hs, hfirst.err, hp, htp, w, rest, hi⟩⟩
  · exact ⟨fun _ h1 => by simp [herr] at h1, fun _ _ => ⟨hecode, hoccasion⟩, fun _ h1 => by simp [herr] at h1,
      fun _ => .inr ⟨hecode, hoccasion⟩⟩

/-! ## OVR over all steps (R96) -/

/-- A step leaves OVR, sets it where a write is dropped, or clears it. -/
theorem step_ovr {s t : State} (h : step s = .next t) :
    t.ovr = s.ovr ∨
    (t.ovr = true ∧ s.pend ≠ .none ∧ SameError s t ∧
      ((∃ idx v rest, s.inbox = .regWrite idx v :: rest ∧ idx ≠ 1) ∨ ∃ addr v rest, s.inbox = .keyWrite addr v :: rest)) ∨
    (t.ovr = false ∧
      ((∃ rest, s.inbox = .reset :: rest) ∨ ∃ v rest, s.inbox = .regWrite 1 v :: rest ∧ v.getLsbD 3 = true)) := by
  cases step_move h with
  | dropWrite idx v rest hi hb hr =>
    have hidx : idx ≠ 1 := mt (Reg.ofIndex_eq_iff idx .status).2 hr
    exact .inr (.inl ⟨rfl, hb, ⟨rfl, rfl⟩, .inl ⟨idx, v, rest, hi, hidx⟩⟩)
  | dropKey addr v rest hi hb => exact .inr (.inl ⟨rfl, hb, ⟨rfl, rfl⟩, .inr ⟨addr, v, rest, hi⟩⟩)
  | reset rest hi => exact .inr (.inr ⟨rfl, .inl ⟨rest, hi⟩⟩)
  | status idx v rest hi hr =>
    obtain rfl := (Reg.ofIndex_eq_iff _ _).1 hr
    cases hv : v.getLsbD 3 with
    | false => exact .inl (by rw [clearStatus_ovr, hv, Bool.not_false, Bool.and_true])
    | true => exact .inr (.inr ⟨by rw [clearStatus_ovr, hv, Bool.not_true, Bool.and_false], .inr ⟨v, rest, hi, hv⟩⟩)
  | accept _ _ _ _ _ _ _ _ _ hm => exact .inl hm.ovr
  | engine _ _ _ _ _ hm => exact .inl hm.ovr
  | _ => exact .inl (by simp [writeWord])

/-- Settles O59: what set or cleared OVR is read off from the step; a dropped write and a STATUS write have their own equations. -/
theorem ovrRecordsDroppedWrites : Obligations.OvrRecordsDroppedWrites := by
  intro s t h
  refine ⟨fun h0 h1 => ?_, fun h0 h1 => ?_, fun hp hdrop => ?_, fun v rest hi hv => ?_⟩
  · rcases step_ovr h with hsame | ⟨-, hp, herr, hdrop⟩ | ⟨hf, -⟩
    · simp [hsame, h0] at h1
    · exact ⟨hp, herr.err, herr.ecode, hdrop⟩
    · simp [hf] at h1
  · rcases step_ovr h with hsame | ⟨ht, -⟩ | ⟨-, hoccasion⟩
    · simp [hsame, h0] at h1
    · simp [ht] at h1
    · exact hoccasion
  · rcases hdrop with ⟨idx, v, rest, hi, hidx⟩ | ⟨addr, v, rest, hi⟩
    · obtain rfl := Host.Outcome.next.inj ((step_regWrite_busy hi hp hidx).symm.trans h)
      exact ⟨rfl, rfl, rfl⟩
    · obtain rfl := Host.Outcome.next.inj ((step_keyWrite_busy hi hp).symm.trans h)
      exact ⟨rfl, rfl, rfl⟩
  · obtain rfl := Host.Outcome.next.inj ((statusWriteOnlyClears s v rest hi).symm.trans h)
    exact if_pos hv

end Sys2Proof.Machine
end

section
/-!
Reset (70_reset_and_hazards.md R105): what the reset input leaves in every field, and that the machine starts in the invariant.
-/
namespace Sys2Proof.Machine

theorem step_eq_resetInput {s : State} {rest : List Event} (hi : s.inbox = .reset :: rest) :
    step s = .next (resetInput { s with inbox := rest }) :=
  step_cons hi

/-- The first reset has already given the registers what a further reset would give them. -/
theorem resetInput_reset : resetInput State.reset = State.reset := rfl

/-- After reset no bit of STATUS is set, the views AV, BV, CV and BUSY included (R22). -/
theorem resetInput_status (s : State) : (resetInput s).status = 0 := by
  simp [State.status, State.busy, State.av, State.bv, State.cv, ECode.bits, bit]

theorem reset_status : State.reset.status = 0 := by
  rw [← resetInput_reset]
  exact resetInput_status State.reset

/-- At power-on no byte of the key memory holds a value (R106). -/
theorem reset_kmem_read (addr : Nat) : State.reset.kmem.read addr = none := rfl

/-- Settles O1: the step at a reset event is `resetInput`, whose fields are the reset values. -/
theorem resetInputTakesResetValues : Obligations.ResetInputTakesResetValues := by
  refine ⟨fun s rest hi => ⟨resetInput { s with inbox := rest }, step_eq_resetInput hi, ?_⟩, ?_⟩
  · simp [State.av, State.bv, State.cv, State.busy, ECode.bits, resetInput_status]
  · exact ⟨rfl, rfl, rfl, rfl, rfl, rfl, rfl, rfl, rfl, rfl, reset_status, rfl, reset_kmem_read⟩

/-- Settles O2: after reset the key memory is empty, no session is open, nothing is pending and no error is recorded. -/
theorem resetMeetsTheInvariant : Obligations.ResetMeetsTheInvariant where
  memory := State.reset_kmem_wf
  session hs := by simp [State.reset] at hs
  inside hs := by simp [State.reset] at hs
  closed _ := rfl
  busy _ := rfl
  pending := State.pendOk_of_idle rfl
  error := rfl

end Sys2Proof.Machine
end
